-- ==== Sys2Proof/Word.lean ====
section
/-! DEFINITION. The words of the block (64-bit lanes, bytes, 12-bit command words) and the 5×5 container
that holds the lanes. Numbers are unsigned and bit 0 is the least significant bit (rule R10). -/

namespace Sys2Proof

/-- One 64-bit lane (rule R20). -/
abbrev Lane := BitVec 64

/-- One byte of a message, of the byte view or of a digest; bit 7 is its most significant bit (rule R54). -/
abbrev Byte := BitVec 8

/-- One command word as the 12 wires of the `cmd` port carry it (rules R80, R92). -/
abbrev CmdWord := BitVec 12

/-- Five values indexed 0..4: one axis of the 5×5 matrix (rule R20). -/
structure Five (α : Type) where
  e0 : α
  e1 : α
  e2 : α
  e3 : α
  e4 : α
deriving DecidableEq, Repr

/-- The value at index `i`. -/
def Five.get {α : Type} (f : Five α) (i : Fin 5) : α :=
  match i with
  | 0 => f.e0
  | 1 => f.e1
  | 2 => f.e2
  | 3 => f.e3
  | 4 => f.e4

/-- The five values `g 0 .. g 4`. -/
def Five.ofFn {α : Type} (g : Fin 5 → α) : Five α := ⟨g 0, g 1, g 2, g 3, g 4⟩

/-- `f` with the value at index `i` replaced. -/
def Five.set {α : Type} (f : Five α) (i : Fin 5) (v : α) : Five α :=
  match i with
  | 0 => { f with e0 := v }
  | 1 => { f with e1 := v }
  | 2 => { f with e2 := v }
  | 3 => { f with e3 := v }
  | 4 => { f with e4 := v }

/-- The 1600-bit state: 25 lanes, first index x, second index y (rule R20). -/
abbrev Lanes := Five (Five Lane)

/-- `A[x][y]`, the read of lane (x, y) (rules R12, R20). -/
def Lanes.at (a : Lanes) (x y : Fin 5) : Lane := (a.get x).get y

/-- The matrix whose lane (x, y) is `f x y`: a write of all 25 lanes at once ("simultaneously" in rule R12). -/
def Lanes.of (f : Fin 5 → Fin 5 → Lane) : Lanes := Five.ofFn fun x => Five.ofFn fun y => f x y

/-- `A[x][y] <- v` (rule R12). -/
def Lanes.put (a : Lanes) (x y : Fin 5) (v : Lane) : Lanes := a.set x ((a.get x).set y v)

/-- All 25 lanes zero. -/
def Lanes.zero : Lanes := Lanes.of fun _ _ => 0

end Sys2Proof
end

