-- ==== Sys2Proof/Config.lean ====
section
/-! DEFINITION. What is fixed for one engine: the names of the four hash variants (rules R3, R27) and the
parameters the spec leaves OPEN (rule R9). The constant tables ROT, RC and LUT stand in Machine/Tables.lean. -/

namespace Sys2Proof

/-- The four hash variants, all required and none reserved (rules R3, R27). -/
inductive Variant where
  | sha3_224
  | sha3_256
  | sha3_384
  | sha3_512
deriving DecidableEq, Repr

/-- What rule R9 leaves open about the `rst` pin: `RESET_KIND` (decision D28). DESIGN CHOICE: the shape, a record
(log entry 8). -/
structure ResetKind where
  synchronous : Bool
  activeHigh : Bool
  minimumWidth : Nat
deriving DecidableEq, Repr, Inhabited

/-- `RESET_KIND`, OPEN (rules R9, R211): a free constant which no definition of the model reads. -/
opaque Config.resetKind : ResetKind

/-- How a circuit spreads a permutation over clock cycles: "rounds computed per clock cycle (1, 2, ... 24), or
bit-serial" (rule R9). DESIGN CHOICE: the shape, with bit-serial as an alternative of its own and every count from 1
to 24 admitted, those that do not divide 24 too (log entry 8). -/
inductive RoundsPerCycle where
  /-- `n + 1` rounds in a clock cycle, so 1 to 24. -/
  | whole (n : Fin 24)
  /-- Less than a round in a clock cycle: bit-serial. -/
  | bitSerial
deriving DecidableEq, Repr, Inhabited

/-- `ROUNDS_PER_CYCLE`, OPEN (rules R9, R221): a free constant which no definition of the model reads. -/
opaque Config.roundsPerCycle : RoundsPerCycle

end Sys2Proof
end

