-- ==== Sys2Proof/Syntax.lean ====
section
/-! DEFINITION. The command set `DK-SHA3-CMD v1` (rules R1, R86): one constructor per row of the opcode table. -/

namespace Sys2Proof

/-- A legal command. INIT names a variant, ABSORB carries one message byte, FINALIZE and SQUEEZE have no
operand (rules R84, R85, R86). -/
inductive Instr where
  /-- `INIT v` (rule R141). -/
  | init (v : Variant)
  /-- `ABSORB b` (rule R142). -/
  | absorb (b : Byte)
  /-- `FINALIZE` (rule R143). -/
  | finalize
  /-- `SQUEEZE` (rule R145). -/
  | squeeze
deriving DecidableEq, Repr

end Sys2Proof
end

