-- ==== Sys2Proof/WellFormed.lean ====
section
/-! DEFINITION. Well-formedness: of a command, of a line of the assembler syntax of rules R90 and R91 (whose
operands are numbers as the programmer wrote them), and of a row of the variant LUT (rule R173). -/

namespace Sys2Proof

/-- A command's operands fit the fields of rule R84 by their types (four variants, 256 bytes), so every command is
well-formed. What can be ill-formed is a word (rule R87, `decode`), an assembler line (`AsmLine.wf`) or a LUT row
(`LutRow.wf`). -/
def Instr.wf (i : Instr) : Bool :=
  match i with
  | .init _ => true
  | .absorb _ => true
  | .finalize => true
  | .squeeze => true

/-- A `<variant>` operand: "0..3 or one of SHA3_224, SHA3_256, SHA3_384, SHA3_512" (rule R90). -/
inductive AsmVariant where
  | code (n : Nat)
  | name (v : Variant)
deriving DecidableEq, Repr

/-- A `<byte>` operand: "0..255, written 0x00..0xFF or as a quoted ASCII character 'a'" (rule R90). -/
inductive AsmByte where
  | number (n : Nat)
  | char (c : Char)
deriving DecidableEq, Repr

/-- A line of an assembler program: the four commands (rule R90) and the pseudo-commands (rule R91). -/
inductive AsmLine where
  | init (v : AsmVariant)
  | absorb (b : AsmByte)
  | finalize
  | squeeze
  /-- `NEW_SHA3_224`, `NEW_SHA3_256`, `NEW_SHA3_384`, `NEW_SHA3_512`. -/
  | newContext (v : Variant)
  | absorbBytes (bs : List AsmByte)
  | finalizeAndSqueeze
  | hash (v : AsmVariant) (bs : List AsmByte)
deriving DecidableEq, Repr

/-- A variant code is 0..3. -/
def AsmVariant.wf (v : AsmVariant) : Bool :=
  match v with
  | .code n => n < 4
  | .name _ => true

/-- A byte is 0..255 and a quoted character is ASCII. -/
def AsmByte.wf (b : AsmByte) : Bool :=
  match b with
  | .number n => n < 256
  | .char c => c.toNat < 128

/-- Every operand of the line is well-formed. -/
def AsmLine.wf (l : AsmLine) : Bool :=
  match l with
  | .init v => v.wf
  | .absorb b => b.wf
  | .finalize => true
  | .squeeze => true
  | .newContext _ => true
  | .absorbBytes bs => bs.all AsmByte.wf
  | .finalizeAndSqueeze => true
  | .hash v bs => v.wf && bs.all AsmByte.wf

/-- A row of the variant LUT as it is stored: "an immutable record" of three fields, 8, 7 and 8 bits wide; capacity
is not stored (rules R170, R172). -/
structure LutRow where
  /-- `rate_bytes`, 8 bits. -/
  rateField : BitVec 8
  /-- `output_bytes`, 7 bits. -/
  outputField : BitVec 7
  /-- `domain_separator`, 8 bits. -/
  domainSeparator : Byte
deriving DecidableEq, Repr

/-- `rate_bytes` as the number that `cursor + 1` is compared with (rule R119). -/
def LutRow.rateBytes (r : LutRow) : Nat := r.rateField.toNat

/-- `output_bytes` as the number that `cursor` is compared with. -/
def LutRow.outputBytes (r : LutRow) : Nat := r.outputField.toNat

/-- The properties of rule R173, in its order: (a) and (d) `output_bytes < rate_bytes`, (b) the rate is a multiple
of 8 between 72 and 144, (c) the separator's top bit is clear. -/
def LutRow.wf (r : LutRow) : Bool :=
  r.outputBytes < r.rateBytes &&
  (r.rateBytes % 8 == 0 && 72 ≤ r.rateBytes && r.rateBytes ≤ 144) &&
  r.domainSeparator &&& 0x80 == 0

end Sys2Proof
end

