-- ==== Sys2Proof/Decode.lean ====
section
/-! DEFINITION. The decoder, total on all 4096 command words (rules R80 to R88), which rejects an illegal word by
name, and the encoder, written from the formats of rule R84. -/

namespace Sys2Proof

/-- Field `op` = `cmd[11:10]` (rule R81). -/
def opField (w : CmdWord) : BitVec 2 := w.extractLsb' 10 2

/-- Field `var` = `cmd[9:8]` (rule R82). -/
def varField (w : CmdWord) : BitVec 2 := w.extractLsb' 8 2

/-- Field `data` = `cmd[7:0]` (rule R83). -/
def dataField (w : CmdWord) : Byte := w.extractLsb' 0 8

/-- The variant a 2-bit code names: 0 SHA3-224, 1 SHA3-256, 2 SHA3-384, 3 SHA3-512 (rules R27, R82). -/
def variantOfCode (c : BitVec 2) : Variant :=
  match c.toNat with
  | 0 => .sha3_224
  | 1 => .sha3_256
  | 2 => .sha3_384
  | _ => .sha3_512

/-- The 2-bit code of a variant, also the contents of the `variant` register (rule R27). -/
def variantCode (v : Variant) : BitVec 2 :=
  match v with
  | .sha3_224 => 0
  | .sha3_256 => 1
  | .sha3_384 => 2
  | .sha3_512 => 3

/-- Why a word is illegal: the four cases of rule R87. -/
inductive IllegalWord where
  /-- `op = 00` with `data != 0x00`. -/
  | initData
  /-- `op = 01` with `var != 00`. -/
  | absorbVar
  /-- `op = 10` with `var != 00` or `data != 0x00`. -/
  | finalizeReserved
  /-- `op = 11` with `var != 00` or `data != 0x00`. -/
  | squeezeReserved
deriving DecidableEq, Repr

/-- The decoder of rules R84 to R88. Reserved fields must be zero and are never ignored (rule R87). -/
def decode (w : CmdWord) : Except IllegalWord Instr :=
  match (opField w).toNat with
  | 0 => if dataField w = 0 then .ok (.init (variantOfCode (varField w))) else .error .initData
  | 1 => if varField w = 0 then .ok (.absorb (dataField w)) else .error .absorbVar
  | 2 => if varField w = 0 ∧ dataField w = 0 then .ok .finalize else .error .finalizeReserved
  | _ => if varField w = 0 ∧ dataField w = 0 then .ok .squeeze else .error .squeezeReserved

/-- The word `{op, var, data}` (rule R80). -/
def assembleWord (op var : BitVec 2) (data : Byte) : CmdWord := op ++ var ++ data

/-- The encoder: the bit patterns of rule R84. -/
def encode (i : Instr) : CmdWord :=
  match i with
  | .init v => assembleWord 0b00 (variantCode v) 0
  | .absorb b => assembleWord 0b01 0 b
  | .finalize => assembleWord 0b10 0 0
  | .squeeze => assembleWord 0b11 0 0

/-- A row of the opcode table of rule R84: a word `w` selects it when `(w & mask) == match`. -/
structure OpcodeRow where
  mnemonic : String
  matchBits : CmdWord
  mask : CmdWord
deriving DecidableEq, Repr

/-- The word selects the row (rule R84). -/
def OpcodeRow.selects (r : OpcodeRow) (w : CmdWord) : Bool := w &&& r.mask == r.matchBits

/-- The four rows of rule R84. -/
def opcodeRows : List OpcodeRow :=
  [⟨"INIT", 0x000, 0xCFF⟩, ⟨"ABSORB", 0x400, 0xF00⟩, ⟨"FINALIZE", 0x800, 0xFFF⟩, ⟨"SQUEEZE", 0xC00, 0xFFF⟩]

/-- The table's row of a command. -/
def Instr.row (i : Instr) : OpcodeRow :=
  match i with
  | .init _ => ⟨"INIT", 0x000, 0xCFF⟩
  | .absorb _ => ⟨"ABSORB", 0x400, 0xF00⟩
  | .finalize => ⟨"FINALIZE", 0x800, 0xFFF⟩
  | .squeeze => ⟨"SQUEEZE", 0xC00, 0xFFF⟩

/-- The 12 wires' contents for an instruction given as a number of `nbits` bits: the port has no wire for bits 12
and up (rules R80, R92; log entry 5). -/
def tableWord (nbits w : Nat) : CmdWord := BitVec.ofNat 12 (w % 2 ^ nbits)

/-- The command the decoder reads from a word numbered as the opcode table numbers it; `none` where it refuses. -/
def decodeTableWord (nbits w : Nat) : Option Instr :=
  match decode (tableWord nbits w) with
  | .ok i => some i
  | .error _ => none

end Sys2Proof
end

