-- ==== Sys2Proof/Machine/State.lean ====
section
/-! DEFINITION. The whole state: the engine's registers (rules R20 to R31) and the host's side of the command
channel (rules R6, R92), the reasons a step can stop, and the state after reset (rules R37, R210). -/

namespace Sys2Proof.Machine

/-- The lifecycle of the sponge context (rule R28). Code 3 is not expressible, as rule R28 and U2 advise. -/
inductive Phase where
  | idle
  | absorb
  | squeeze
deriving DecidableEq, Repr

/-- The contents of the `cause` register (rules R29, R181). -/
inductive Cause where
  /-- Code 0: no fault. -/
  | noFault
  /-- Code 1: the word matches no row of the opcode table (rule R182). -/
  | illegalEncoding
  /-- Code 2: a legal command in a phase that does not execute it (rule R183). -/
  | phaseViolation
  /-- Code 3: a SQUEEZE after all digest bytes (rule R184). -/
  | squeezeOverrun
deriving DecidableEq, Repr

/-- One event at the engine's ports, in the order of rules R92, R211 and R218. -/
inductive HostEvent where
  /-- The host issues a word (`cmd_valid` and `cmd_ready` both high). -/
  | issue (w : CmdWord)
  /-- A reset event between two commands. -/
  | reset
  /-- The host issues a word, and a reset event arrives while the engine executes it. -/
  | resetDuring (w : CmdWord)
  /-- The host issues nothing for a while. -/
  | wait
deriving DecidableEq, Repr

/-- Reasons for the model to stop with a fault: there are none. The three faults of rule R181 are no stops, they
are next states with the `fault` register set (rule R186). -/
inductive Fault where
deriving DecidableEq, Repr

/-- Reasons for the model to give a step no meaning. -/
inductive Refusal where
  /-- A command that has no meaning yet, by its mnemonic; raised by an arm of `exec`. Safe. No arm raises it. -/
  | notModelled (mnemonic : String)
  /-- ABSORB or FINALIZE with `cursor >= rate` in phase ABSORB, or SQUEEZE with `cursor > outlen` in phase SQUEEZE.
  The spec gives such states no behaviour ("`refuse`", U3) and no run reaches them (rule R36). Raised by those three
  commands. Safe. -/
  | cursorOutOfRange
deriving DecidableEq, Repr

/-- The engine's architectural state (rules R20 to R31), the response port, and the host agent's own two lists. -/
structure State where
  /-- The 25 lanes `A[x][y]`; the 200 bytes `SB[k]` are the same storage (rules R20, R22). -/
  lanes : Lanes
  /-- `cursor`, 8 bits (rule R26). -/
  cursor : BitVec 8
  /-- `variant`, 2 bits, whose code is `variantCode` (rule R27). -/
  variant : Variant
  /-- `phase`, 2 bits, whose code is `phaseCode` (rule R28). -/
  phase : Phase
  /-- `fault`, 1 bit, sticky (rule R29). -/
  fault : Bool
  /-- `cause`, 2 bits, whose code is `causeCode` (rule R29). -/
  cause : Cause
  /-- The response of the last event: `rsp_valid` with `rsp_data` (rule R92). -/
  rsp : Option Byte
  /-- The HOST's: the events it has still to make, in order ("the sequence of issued words is the engine's
  program", rule R92). No queue inside the engine (rule R213). -/
  inputs : List HostEvent
  /-- The HOST's: the response bytes it has taken, oldest first (rules R6, R53). -/
  received : List Byte
deriving DecidableEq, Repr

/-- The state right after a reset event (rules R37, R210), with a host that has issued and received nothing. -/
def State.reset : State where
  lanes := Lanes.zero
  cursor := 0
  variant := .sha3_224
  phase := .idle
  fault := false
  cause := .noFault
  rsp := none
  inputs := []
  received := []

/-- What a step, a command or an event answers. -/
abbrev Result := Host.Outcome State Fault Refusal

end Sys2Proof.Machine
end

