-- ==== Sys2Proof/Machine/Tables.lean ====
section
/-! DEFINITION. The three read-only tables (rules R34, R51): rotation offsets ROT (R112), round constants RC
(R113) and the variant LUT (R170). -/

namespace Sys2Proof.Machine

/-- Row x of the table printed in rule R112, its entries y = 0..4, each stored in 6 bits (rule R34). -/
def rotTable : Five (Five (BitVec 6)) :=
  ⟨⟨0, 36, 3, 41, 18⟩, ⟨1, 44, 10, 45, 2⟩, ⟨62, 6, 43, 15, 61⟩, ⟨28, 55, 25, 21, 56⟩, ⟨27, 20, 39, 8, 14⟩⟩

/-- `ROT[x][y]`, indexed by the coordinates of the lane being rotated (rule R112, conflict C1). -/
def rot (x y : Fin 5) : Nat := ((rotTable.get x).get y).toNat

/-- The eight lines of the table of round constants as rule R113 prints it: line j holds `RC[j]`, `RC[j + 8]` and
`RC[j + 16]`. -/
def rcLines : Vector (Vector Lane 3) 8 :=
  #v[#v[0x0000000000000001, 0x000000000000008A, 0x8000000000008002],
     #v[0x0000000000008082, 0x0000000000000088, 0x8000000000000080],
     #v[0x800000000000808A, 0x0000000080008009, 0x000000000000800A],
     #v[0x8000000080008000, 0x000000008000000A, 0x800000008000000A],
     #v[0x000000000000808B, 0x000000008000808B, 0x8000000080008081],
     #v[0x0000000080000001, 0x800000000000008B, 0x8000000000008080],
     #v[0x8000000080008081, 0x8000000000008089, 0x0000000080000001],
     #v[0x8000000000008009, 0x8000000000008003, 0x8000000080008008]]

/-- `RC[i]`, on line `i mod 8` of the printed table, in its column `i div 8` (rule R113). -/
def rc (i : Fin 24) : Lane := (rcLines[i.val % 8]'(Nat.mod_lt _ (by decide)))[i.val / 8]'(by omega)

/-- `LUT[v]` (rule R170). -/
def lut (v : Variant) : LutRow :=
  match v with
  | .sha3_224 => ⟨144, 28, 0x06⟩
  | .sha3_256 => ⟨136, 32, 0x06⟩
  | .sha3_384 => ⟨104, 48, 0x06⟩
  | .sha3_512 => ⟨72, 64, 0x06⟩

/-- Capacity in bits, derived and never stored: `1600 - rate_bits` (rule R172). -/
def capacityBits (v : Variant) : Nat := 1600 - 8 * (lut v).rateBytes

end Sys2Proof.Machine
end

