-- ==== Sys2Proof/Machine/Permutation.lean ====
section
/-! DEFINITION. Layer 1, the permutation engine: THETA, RHOPI, CHI, IOTA, ROUND, PERMUTE as pure functions of the
25 lanes (rules R110 to R123). They have no encoding; ABSORB and FINALIZE invoke PERMUTE (rule R93). -/

namespace Sys2Proof.Machine

/-- `rol64(v, n)` for `0 <= n <= 63` (rule R11). -/
def rol64 (v : Lane) (n : Nat) : Lane := if n = 0 then v else (v <<< n) ||| (v >>> (64 - n))

/-- The column parities `C[x]`: XOR over the y-axis for fixed x (rule R114). -/
def thetaC (a : Lanes) : Five Lane :=
  Five.ofFn fun x => a.at x 0 ^^^ a.at x 1 ^^^ a.at x 2 ^^^ a.at x 3 ^^^ a.at x 4

/-- `D[x] = C[(x + 4) mod 5] ^ rol64(C[(x + 1) mod 5], 1)` (rule R114); `Fin 5` adds mod 5. -/
def thetaD (a : Lanes) : Five Lane :=
  Five.ofFn fun x => (thetaC a).get (x + 4) ^^^ rol64 ((thetaC a).get (x + 1)) 1

/-- `THETA` (rule R114). -/
def theta (a : Lanes) : Lanes := Lanes.of fun x y => a.at x y ^^^ (thetaD a).get x

/-- `RHOPI` (rule R115), destination by destination: `B[X][Y] = rol64(A[x][y], ROT[x][y])` with `y = X` and
`x = (X + 3*Y) mod 5`. -/
def rhopi (a : Lanes) : Lanes := Lanes.of fun X Y => rol64 (a.at (X + 3 * Y) X) (rot (X + 3 * Y) X)

/-- `CHI` (rule R116). -/
def chi (b : Lanes) : Lanes := Lanes.of fun x y => b.at x y ^^^ (~~~(b.at (x + 1) y) &&& b.at (x + 2) y)

/-- `IOTA(i)` (rule R117): lane (0, 0) only. -/
def iota (i : Fin 24) (a : Lanes) : Lanes := a.put 0 0 (a.at 0 0 ^^^ rc i)

/-- `ROUND(i)` (rule R118). -/
def keccakRound (i : Fin 24) (a : Lanes) : Lanes := iota i (chi (rhopi (theta a)))

/-- `PERMUTE` (rule R120): rounds 0, 1, ..., 23 in that order. The hidden round index `rnd` (rule R33) is the
variable of this fold. -/
def permute (a : Lanes) : Lanes := (List.finRange 24).foldl (fun s rnd => keccakRound rnd s) a

end Sys2Proof.Machine
end

