-- ==== Sys2Proof/Machine/Ops.lean ====
section
/-! DEFINITION. The named operations: the byte view of the lanes (rules R22, R23, R50), the updates of the registers,
fault entry (rule R186) and the reset event that ends a fault (rules R188, R210), and the checks every command
makes first (rules R140, R183). -/

namespace Sys2Proof.Machine

/-- An address of the state byte space, 0..199 (rule R50). No other address exists. -/
abbrev Addr := Fin 200

/-- The x-coordinate of the lane that holds byte `k`: `(k div 8) mod 5` (rules R21, R22). -/
def laneX (k : Addr) : Fin 5 := Fin.ofNat 5 (k.val / 8)

/-- The y-coordinate of the lane that holds byte `k`: `(k div 8) div 5`, at most 4 (rules R21, R22). -/
def laneY (k : Addr) : Fin 5 := Fin.ofNat 5 (k.val / 8 / 5)

/-- The place of byte `k` in its lane, in bits: `8*(k mod 8)`, little-endian (rules R22, R52). -/
def laneShift (k : Addr) : Nat := 8 * (k.val % 8)

/-- `MemRead(k, 1)`, the byte `SB[k]` (rules R12, R22). -/
def readByte (a : Lanes) (k : Addr) : Byte := (a.at (laneX k) (laneY k)).extractLsb' (laneShift k) 8

/-- `MemWrite(k, 1, v)`, that is `SB[k] <- v` (rules R12, R22). -/
def writeByte (a : Lanes) (k : Addr) (v : Byte) : Lanes :=
  a.put (laneX k) (laneY k)
    ((a.at (laneX k) (laneY k) &&& ~~~((0xFF : Lane) <<< laneShift k)) ||| (v.setWidth 64 <<< laneShift k))

/-- `SB[k] <- SB[k] ^ v`, the only read-modify-write (rules R23, R62). -/
def xorByte (a : Lanes) (k : Addr) (v : Byte) : Lanes := writeByte a k (readByte a k ^^^ v)

/-- `MemRead(8*i, 8)`, the eight bytes of flat lane `i`, lowest address least significant (rules R12, R22). -/
def readLane (a : Lanes) (i : Fin 25) : Lane :=
  let byte (j : Nat) : Byte := readByte a (Fin.ofNat 200 (8 * i.val + j))
  byte 7 ++ byte 6 ++ byte 5 ++ byte 4 ++ byte 3 ++ byte 2 ++ byte 1 ++ byte 0

/-- The state byte space as a sparse listing of its non-zero bytes, addresses rising: a view of the lanes, which are
its one home (rule R50; log entry 2). -/
def memoryCells (a : Lanes) : List Host.Cell :=
  (List.finRange 200).filterMap fun k => if readByte a k = 0 then none else some (k.val, readByte a k)

/-- The canonical form of such a listing: addresses strictly rising and below 200, no byte listed that equals 0. -/
def Memory.wf (m : List Host.Cell) : Bool :=
  m.Pairwise (fun c d => c.1 < d.1) && m.all fun c => c.1 < 200 && c.2 != 0

/-- Takes the next host event off the host's list. -/
def takeInput (rest : List HostEvent) (s : State) : State := { s with inputs := rest }

/-- No response is offered; nothing else changes. It is the effect of discarding a word (rule R187) and of waiting
(rule R198). -/
def quiet (s : State) : State := { s with rsp := none }

/-- `respond(b)`: the engine hands `b` to the host, which takes it at once (rules R12, R92). -/
def respond (b : Byte) (s : State) : State := { s with rsp := some b, received := s.received ++ [b] }

/-- The register writes of INIT (rule R141). -/
def construct (v : Variant) (s : State) : State :=
  { s with lanes := Lanes.zero, cursor := 0, variant := v, phase := .absorb }

/-- Writes the lanes and the cursor (the two registers an ABSORB writes, rule R142). -/
def putBlock (a : Lanes) (c : BitVec 8) (s : State) : State := { s with lanes := a, cursor := c }

/-- `phase <- P` (rule R12). -/
def setPhase (p : Phase) (s : State) : State := { s with phase := p }

/-- `cursor <- cursor + 1` (rule R145). -/
def advanceCursor (s : State) : State := { s with cursor := s.cursor + 1 }

/-- Fault entry (rule R186): `fault <- 1; cause <- c`, no response, and nothing else. -/
def enterFault (c : Cause) (s : State) : State := { s with fault := true, cause := c, rsp := none }

/-- `raise Fault(c)` (rules R12, R186): the engine goes on, in its fault state. -/
def raise (c : Cause) (s : State) : Result := .next (enterFault c s)

/-- The reset event, the only return from a fault (rules R188, R210, R211): every register of the engine takes its
reset value and no response is delivered. The host's two lists are not the engine's. -/
def resetEngine (s : State) : State := { State.reset with inputs := s.inputs, received := s.received }

/-- The prologue of rule R140: while `fault == 1` the word is discarded; otherwise the command goes on, with no
response until it responds. -/
def prologue (s : State) (command : State → Result) : Result :=
  if s.fault then .next (quiet s) else command (quiet s)

/-- `if phase != p: raise Fault(2)` (rules R142, R143, R145, R183). -/
def requirePhase (p : Phase) (s : State) (command : State → Result) : Result :=
  if s.phase = p then command s else raise .phaseViolation s

end Sys2Proof.Machine
end

