-- ==== Sys2Proof/Machine/Operands.lean ====
section
/-! DEFINITION. What the commands take as operands besides their word's fields: the LUT row (rule R171) and the
addresses they generate, `cursor` and `rate - 1` (rules R50, R56). -/

namespace Sys2Proof.Machine

/-- `LUTREAD` (rule R171): the row that the register `variant` selects. -/
def lutRead (s : State) : LutRow := lut s.variant

/-- The address `cursor`, given when it is below `bound` (`rate` or `outlen`); the spec gives a cursor at or past its
bound no behaviour (U3). -/
def cursorAddr (s : State) (bound : Nat) : Option Addr :=
  if h : s.cursor.toNat < bound ∧ s.cursor.toNat < 200 then some ⟨s.cursor.toNat, h.2⟩ else none

/-- The address `rate - 1` of the final padding byte (rule R143). -/
def padAddr (v : Variant) : Addr := Fin.ofNat 200 ((lut v).rateBytes - 1)

/-- The two XORs of the padding rule, in order: `sep` at `pos`, then 0x80 at `rate - 1` (rules R143, R144). -/
def padState (v : Variant) (pos : Addr) (a : Lanes) : Lanes :=
  xorByte (xorByte a pos (lut v).domainSeparator) (padAddr v) 0x80

end Sys2Proof.Machine
end

