-- ==== Sys2Proof/Machine/Flags.lean ====
section
/-! DEFINITION. The outputs the host sees (rules R31, R92). There are no arithmetic condition codes (rule R31), so
no flag computation. -/

namespace Sys2Proof.Machine

/-- The 2-bit code of a phase (rule R28). -/
def phaseCode (p : Phase) : BitVec 2 :=
  match p with
  | .idle => 0
  | .absorb => 1
  | .squeeze => 2

/-- The 2-bit code of a cause (rules R29, R181). -/
def causeCode (c : Cause) : BitVec 2 :=
  match c with
  | .noFault => 0
  | .illegalEncoding => 1
  | .phaseViolation => 2
  | .squeezeOverrun => 3

/-- The output ports of rule R92 between two commands. `rsp_data` has no stated value while `rsp_valid` is low, so
the two are one option. -/
structure Outputs where
  cmdReady : Bool
  rsp : Option Byte
  phase : BitVec 2
  fault : Bool
  cause : BitVec 2
deriving DecidableEq, Repr

/-- The outputs of a state: `phase`, `fault` and `cause` are the registers themselves, not copies (rule R31), and
between commands the channel is ready, in the fault state too (rules R92, R187). -/
def outputs (s : State) : Outputs where
  cmdReady := true
  rsp := s.rsp
  phase := phaseCode s.phase
  fault := s.fault
  cause := causeCode s.cause

/-- `digest_ready = (phase == SQUEEZE) and (fault == 0)` (rule R31). -/
def digestReady (s : State) : Bool := s.phase == .squeeze && !s.fault

end Sys2Proof.Machine
end

