-- ==== Sys2Proof/Machine/Sponge.lean ====
section
/-! DEFINITION. Layer 2, the sponge controller: the meanings of the four commands (rules R140 to R145). -/

namespace Sys2Proof.Machine

/-- `INIT v` (rule R141): executed in every phase. -/
def execInit (v : Variant) (s : State) : Result :=
  prologue s fun s => .next (construct v s)

/-- `ABSORB b` (rule R142): XORs the byte at `cursor`, and permutes when that completes the block. -/
def execAbsorb (b : Byte) (s : State) : Result :=
  prologue s fun s => requirePhase .absorb s fun s =>
    match cursorAddr s (lutRead s).rateBytes with
    | none => .refused .cursorOutOfRange
    | some k =>
      if s.cursor.toNat + 1 = (lutRead s).rateBytes then .next (putBlock (permute (xorByte s.lanes k b)) 0 s)
      else .next (putBlock (xorByte s.lanes k b) (s.cursor + 1) s)

/-- `FINALIZE` (rule R143): pads, permutes once, and opens the digest. -/
def execFinalize (s : State) : Result :=
  prologue s fun s => requirePhase .absorb s fun s =>
    match cursorAddr s (lutRead s).rateBytes with
    | none => .refused .cursorOutOfRange
    | some k => .next (setPhase .squeeze (putBlock (permute (padState s.variant k s.lanes)) 0 s))

/-- `SQUEEZE` (rule R145): answers the next digest byte. -/
def execSqueeze (s : State) : Result :=
  prologue s fun s => requirePhase .squeeze s fun s =>
    if s.cursor.toNat = (lutRead s).outputBytes then raise .squeezeOverrun s
    else
      match cursorAddr s (lutRead s).outputBytes with
      | none => .refused .cursorOutOfRange
      | some k => .next (advanceCursor (respond (readByte s.lanes k) s))

end Sys2Proof.Machine
end

