-- ==== Sys2Proof/Machine/Channel.lean ====
section
/-! DEFINITION. The command channel (rules R92, R211, R218): what one event does to the engine. -/

namespace Sys2Proof.Machine

/-- An issued word (rules R88, R140, R185): a legal one runs its command, and an illegal one raises
ILLEGAL_ENCODING, unless `fault == 1`, when either is discarded. -/
def issueWord (w : CmdWord) (s : State) : Result :=
  match decode w with
  | .ok i => exec i s
  | .error _ => prologue s (raise .illegalEncoding)

/-- One event. A reset event gives the reset state whether or not a command was executing (rule R211), and while the
host issues nothing the state holds (rules R154, R198). -/
def hostEvent (e : HostEvent) (s : State) : Result :=
  match e with
  | .issue w => issueWord w s
  | .reset => .next (resetEngine s)
  | .resetDuring _ => .next (resetEngine s)
  | .wait => .next (quiet s)

/-- The next event of the host's list; a host with none left issues nothing. -/
def channelStep (s : State) : Result :=
  match s.inputs with
  | [] => .next (quiet s)
  | e :: rest => hostEvent e (takeInput rest s)

/-- Puts a word in front of the host's list. -/
def pushWord (w : CmdWord) (s : State) : State := takeInput (.issue w :: s.inputs) s

end Sys2Proof.Machine
end

