-- ==== Sys2Proof/Machine/Step.lean ====
section
/-! DEFINITION. One step: the complete handling of one event at the engine's ports (rules R6, R7). -/

namespace Sys2Proof.Machine

/-- One step of the machine. -/
def step (s : State) : Host.Outcome State Fault Refusal := channelStep s

/-- `s` with the word as the next one the host issues, so that the very next step runs it. -/
def State.withFetchWord (s : State) (nbits w : Nat) : State := pushWord (tableWord nbits w) s

end Sys2Proof.Machine
end

