-- ==== Sys2Proof/Machine/Program.lean ====
section
/-! DEFINITION. Programs: the pseudo-commands of rule R91 as sequences of commands, the assembler syntax of rule R90,
and the run of a sequence of commands. -/

namespace Sys2Proof.Machine

/-- `ABSORB_BYTES b0 ... b(n-1)` (rule R91): one ABSORB a byte, nothing when there is none. -/
def absorbBytes (bs : List Byte) : List Instr := bs.map .absorb

/-- `FINALIZE_AND_SQUEEZE` in a computation of variant `v` (rule R91). -/
def finalizeAndSqueeze (v : Variant) : List Instr := .finalize :: List.replicate (lut v).outputBytes .squeeze

/-- `HASH v, b0 ... b(n-1)` (rule R91): a whole hash computation. -/
def hashProgram (v : Variant) (m : List Byte) : List Instr := .init v :: (absorbBytes m ++ finalizeAndSqueeze v)

/-- A program as the host issues it: one word a command, in order (rule R92). -/
def issueAll (p : List Instr) : List HostEvent := p.map fun i => .issue (encode i)

/-- The commands of a program one after the other, stopping where one stops. -/
def execAll (p : List Instr) (s : State) : Result :=
  match p with
  | [] => .next s
  | i :: rest =>
    match exec i s with
    | .next t => execAll rest t
    | .fault r => .fault r
    | .refused r => .refused r

/-- The variant an operand names, `none` where it is ill-formed (rule R90). -/
def asmVariant (v : AsmVariant) : Option Variant :=
  match v with
  | .code n => if n < 4 then some (variantOfCode (BitVec.ofNat 2 n)) else none
  | .name v => some v

/-- The byte an operand names, `none` where it is ill-formed (rule R90). -/
def asmByte (b : AsmByte) : Option Byte :=
  match b with
  | .number n => if n < 256 then some (BitVec.ofNat 8 n) else none
  | .char c => if c.toNat < 128 then some (BitVec.ofNat 8 c.toNat) else none

/-- The commands a line stands for, `active` being the variant of the last INIT before it, which fixes the length of
FINALIZE_AND_SQUEEZE (rules R90, R91). -/
def expandLine (active : Option Variant) (l : AsmLine) : Option (List Instr) :=
  match l with
  | .init v => (asmVariant v).map fun v => [.init v]
  | .absorb b => (asmByte b).map fun b => [.absorb b]
  | .finalize => some [.finalize]
  | .squeeze => some [.squeeze]
  | .newContext v => some [.init v]
  | .absorbBytes bs => (bs.mapM asmByte).map absorbBytes
  | .finalizeAndSqueeze => active.map finalizeAndSqueeze
  | .hash v bs => (asmVariant v).bind fun v => (bs.mapM asmByte).map (hashProgram v)

/-- The variant of the last INIT after a line. -/
def activeAfter (active : Option Variant) (l : AsmLine) : Option Variant :=
  match l with
  | .init v => asmVariant v
  | .newContext v => some v
  | .hash v _ => asmVariant v
  | .absorb _ => active
  | .finalize => active
  | .squeeze => active
  | .absorbBytes _ => active
  | .finalizeAndSqueeze => active

/-- The commands of a program's lines, "executed top to bottom" (rule R90). -/
def assemble (active : Option Variant) (p : List AsmLine) : Option (List Instr) :=
  match p with
  | [] => some []
  | l :: rest => (expandLine active l).bind fun is => (assemble (activeAfter active l) rest).map (is ++ ·)

/-- A piece of a line of program text (rule R90). -/
inductive Token where
  | word (cs : List Char)
  | quoted (c : Char)
  | comma
deriving DecidableEq, Repr

/-- Ends the word collected so far (in reverse). -/
def endWord (acc : List Char) (ts : List Token) : List Token :=
  if acc.isEmpty then ts else .word acc.reverse :: ts

/-- The tokens of one line; a `;` starts a comment (rule R90). -/
def lex (acc : List Char) (line : List Char) : List Token :=
  match line with
  | [] => endWord acc []
  | '\'' :: c :: '\'' :: rest => endWord acc (.quoted c :: lex [] rest)
  | c :: rest =>
    if c = ';' then endWord acc []
    else if c = ' ' then endWord acc (lex [] rest)
    else if c = ',' then endWord acc (.comma :: lex [] rest)
    else lex (c :: acc) rest

/-- The hexadecimal digits, each at the place of its value. -/
def hexDigits : List Char := "0123456789ABCDEF".toList

/-- The value of a digit is its place in `hexDigits`, small letters counting as capitals. -/
def hexDigit (c : Char) : Option Nat := hexDigits.findIdx? (· == c.toUpper)

/-- A number `0x...` of at least one hexadecimal digit, its most significant first. -/
def parseHex (cs : List Char) : Option Nat :=
  match cs with
  | '0' :: 'x' :: digits =>
    if digits.isEmpty then none
    else (digits.mapM hexDigit).map fun values => values.foldl (fun high low => 16 * high + low) 0
  | _ => none

/-- The four names of rule R90, in the order of their codes. -/
def variantOfName (cs : List Char) : Option Variant :=
  if cs = "SHA3_224".toList then some .sha3_224
  else if cs = "SHA3_256".toList then some .sha3_256
  else if cs = "SHA3_384".toList then some .sha3_384
  else if cs = "SHA3_512".toList then some .sha3_512
  else none

/-- A `<variant>` operand: one decimal digit, checked to be 0..3 when the line is expanded, or a name (rule R90). -/
def parseVariant (t : Token) : Option AsmVariant :=
  match t with
  | .word [d] => if d.isDigit then some (.code (d.toNat - '0'.toNat)) else none
  | .word cs => (variantOfName cs).map .name
  | .quoted _ => none
  | .comma => none

/-- A `<byte>` operand: `0x..` or a quoted character (rule R90). -/
def parseByte (t : Token) : Option AsmByte :=
  match t with
  | .word cs => (parseHex cs).map .number
  | .quoted c => some (.char c)
  | .comma => none

/-- The line that a mnemonic and its operands spell (rules R90, R91). -/
def parseCommand (mnemonic : List Char) (operands : List Token) : Option AsmLine :=
  if mnemonic = "INIT".toList then
    match operands with
    | [v] => (parseVariant v).map .init
    | _ => none
  else if mnemonic = "ABSORB".toList then
    match operands with
    | [b] => (parseByte b).map .absorb
    | _ => none
  else if mnemonic = "ABSORB_BYTES".toList then (operands.mapM parseByte).map .absorbBytes
  else if mnemonic = "HASH".toList then
    match operands with
    | v :: .comma :: bs => (parseVariant v).bind fun v => (bs.mapM parseByte).map (.hash v)
    | _ => none
  else if ¬ operands.isEmpty then none
  else if mnemonic = "FINALIZE".toList then some .finalize
  else if mnemonic = "SQUEEZE".toList then some .squeeze
  else if mnemonic = "FINALIZE_AND_SQUEEZE".toList then some .finalizeAndSqueeze
  else if mnemonic.take 4 = "NEW_".toList then (variantOfName (mnemonic.drop 4)).map .newContext
  else none

/-- The lines that one line of text spells: none where it is blank or only a comment. -/
def parseLine (line : List Char) : Option (List AsmLine) :=
  match lex [] line with
  | [] => some []
  | .word cs :: operands => (parseCommand cs operands).map fun l => [l]
  | _ => none

/-- The program that the lines of a text spell, from a state with no context (rule R90). -/
def assembleText (lines : List String) : Option (List Instr) :=
  (lines.mapM fun l => parseLine l.toList).bind fun ls => assemble none ls.flatten

/-- A hexadecimal digit in capitals. -/
def showHexDigit (n : Nat) : Char := hexDigits.getD n '0'

/-- A byte as rule R90 writes it, `0x00..0xFF`. -/
def showByte (b : Byte) : String := String.ofList ['0', 'x', showHexDigit (b.toNat / 16), showHexDigit (b.toNat % 16)]

/-- A command as rule R90 writes it. -/
def showCommand (i : Instr) : String :=
  match i with
  | .init v => "INIT " ++ String.singleton (showHexDigit (variantCode v).toNat)
  | .absorb b => "ABSORB " ++ showByte b
  | .finalize => "FINALIZE"
  | .squeeze => "SQUEEZE"

/-- A line of a trace: the command and, after a SQUEEZE that answered, its response, `SQUEEZE -> 0xNN` (rule R90). -/
def traceLine (i : Instr) (response : Option Byte) : String :=
  match response with
  | none => showCommand i
  | some b => showCommand i ++ " -> " ++ showByte b

end Sys2Proof.Machine
end

