-- ==== Sys2Proof/Machine/Digest.lean ====
section
/-! DEFINITION. What a whole computation computes, written on messages and not on commands: the sponge function of
rule R152, and the buffered machine of rule R153. -/

namespace Sys2Proof.Machine

/-- XORs bytes into the byte view at the offsets `k, k+1, ...` (rule R152). -/
def xorBytes (a : Lanes) (k : Nat) (bs : List Byte) : Lanes :=
  match bs with
  | [] => a
  | b :: rest => xorBytes (xorByte a (Fin.ofNat 200 k) b) (k + 1) rest

/-- The `q` full blocks of rule R152: each is XORed in at the offsets 0 to rate-1 and followed by a permutation. -/
def absorbBlocks (rate q : Nat) (a : Lanes) (m : List Byte) : Lanes :=
  match q with
  | 0 => a
  | q + 1 => absorbBlocks rate q (permute (xorBytes a 0 (m.take rate))) (m.drop rate)

/-- The lanes after the whole message, before padding: the full blocks, then the tail (rule R152). -/
def absorbedLanes (v : Variant) (m : List Byte) : Lanes :=
  let rate := (lut v).rateBytes
  let q := m.length / rate
  xorBytes (absorbBlocks rate q Lanes.zero m) 0 (m.drop (q * rate))

/-- The lanes after the last permutation (rule R152). -/
def finalLanes (v : Variant) (m : List Byte) : Lanes :=
  permute (padState v (Fin.ofNat 200 (m.length % (lut v).rateBytes)) (absorbedLanes v m))

/-- The bytes `SB[0] .. SB[n-1]`. -/
def firstBytes (a : Lanes) (n : Nat) : List Byte := (List.range n).map fun k => readByte a (Fin.ofNat 200 k)

/-- The digest `d[0] .. d[outlen-1]` of message `m` for variant `v` (rule R152). -/
def digest (v : Variant) (m : List Byte) : List Byte := firstBytes (finalLanes v m) (lut v).outputBytes

/-- The padded last block of rule R144: the tail, the separator after it, zeros, and 0x80 in the last place, the two
meeting as 0x86 when the tail leaves one byte of room. -/
def paddedBlock (v : Variant) (tail : List Byte) : List Byte :=
  (List.range (lut v).rateBytes).map fun k =>
    tail.getD k 0 ^^^ (if k = tail.length then (lut v).domainSeparator else 0) ^^^
      (if k = (lut v).rateBytes - 1 then 0x80 else 0)

/-- The machine of the document's section 4.2 (rule R153): lanes and an unconsumed-input buffer. -/
structure Buffered where
  lanes : Lanes
  buffer : List Byte
deriving DecidableEq, Repr

/-- Its construction: lanes zero, buffer empty. -/
def Buffered.fresh : Buffered := ⟨Lanes.zero, []⟩

/-- Its absorption of one byte: "whenever the accumulated unconsumed data reaches `rate_bytes`, the full block is
XORed byte-for-byte into the State" and the permutation runs (quoted in rule R142). -/
def bufferedAbsorb (v : Variant) (m : Buffered) (b : Byte) : Buffered :=
  if m.buffer.length + 1 = (lut v).rateBytes then ⟨permute (xorBytes m.lanes 0 (m.buffer ++ [b])), []⟩
  else ⟨m.lanes, m.buffer ++ [b]⟩

/-- Its finalization: the padded block is XORed in and the permutation runs once. -/
def bufferedFinalize (v : Variant) (m : Buffered) : Lanes := permute (xorBytes m.lanes 0 (paddedBlock v m.buffer))

end Sys2Proof.Machine
end

