-- ==== Sys2Proof/Machine/Timing.lean ====
section
/-! DEFINITION. The OPEN latency of a command (rules R9, R221). The model has no time. -/

namespace Sys2Proof.Machine

/-- `LAT_CMD(c, s)`, OPEN: "any finite value; no rule depends on it" (rule R9). A free function with no body, which
no definition of the model reads. DESIGN CHOICE: a number of cycles as its shape (log entry 8). -/
opaque latCmd : Instr → State → Nat

end Sys2Proof.Machine
end

