-- ==== Sys2Proof/Safety.lean ====
section
/-! DEFINITION. What counts as a safe state and a successful run, in the terms the statements use. -/

namespace Sys2Proof.Machine

/-- The invariants of rule R36 that speak of the state: I2, I3, I4, I5 in this order. I1 holds by the type `Phase`
and I6 is a fact about the LUT alone. -/
abbrev Inv (s : State) : Prop :=
  (s.phase = .idle → s.cursor = 0 ∧ s.lanes = Lanes.zero ∧ s.variant = .sha3_224) ∧
  (s.phase = .absorb → s.cursor.toNat < (lut s.variant).rateBytes) ∧
  (s.phase = .squeeze → s.cursor.toNat ≤ (lut s.variant).outputBytes) ∧
  (s.fault = false ↔ s.cause = .noFault)

/-- A computation is complete (rule R217). -/
abbrev Complete (s : State) : Prop :=
  s.phase = .squeeze ∧ s.cursor.toNat = (lut s.variant).outputBytes ∧ s.fault = false

/-- The event is a reset event (rule R211). -/
def HostEvent.isReset (e : HostEvent) : Bool :=
  match e with
  | .issue _ => false
  | .reset => true
  | .resetDuring _ => true
  | .wait => false

/-- A command step that succeeds (rule R187, U15): the host issues a word to an engine that has no fault, and the
engine has none after it. -/
abbrev SuccessfulStep (s t : State) : Prop :=
  (∃ w rest, s.inputs = .issue w :: rest) ∧ s.fault = false ∧ step s = .next t ∧ t.fault = false

/-- The two states hold the same in every register of the engine that a command reads or writes (rule R20 to R29):
the host's lists and the response port aside. -/
abbrev SameEngine (s t : State) : Prop :=
  s.lanes = t.lanes ∧ s.cursor = t.cursor ∧ s.variant = t.variant ∧ s.phase = t.phase ∧
  s.fault = t.fault ∧ s.cause = t.cause

end Sys2Proof.Machine
end

