-- ==== Sys2Proof/Certificates/Slice0/Obligations.lean ====
section
/-! DEFINITION. The statements for the provers: what the spec's numbered rules say the block does. Each docstring
names the rule it formalises. In every state named by a statement the response port `rsp` and the host's two lists
`inputs` and `received` are the model's form of the channel of rule R92 (log entry 3). -/

open Sys2Proof Sys2Proof.Machine

/-! ### Encoding -/

/-- Decode and encode agree in both directions: a word decodes to a command exactly when it is that command's word,
with every operand at every value (rules R84, R88). -/
def Obligations.DecodeInvertsEncode : Prop :=
  ∀ (w : CmdWord) (i : Instr), decode w = .ok i ↔ encode i = w

/-- Rule R87: which words are illegal, how many there are, and that issuing one to an engine with no fault raises
cause 1 in every phase and changes nothing else. -/
def Obligations.IllegalWordsAreThoseOfTheRule : Prop :=
  (∀ w : CmdWord, (∃ e, decode w = .error e) ↔
    (opField w = 0b00 ∧ dataField w ≠ 0x00) ∨
    (opField w = 0b01 ∧ varField w ≠ 0b00) ∨
    ((opField w = 0b10 ∨ opField w = 0b11) ∧ (varField w ≠ 0b00 ∨ dataField w ≠ 0x00))) ∧
  (∀ w : CmdWord, (∃ e, decode w = .error e) ↔ ∀ r ∈ opcodeRows, r.selects w = false) ∧
  Nat.card { w : CmdWord // ∃ e, decode w = .error e } = 3834 ∧
  (∀ (w : CmdWord) (e : IllegalWord) (s : State), decode w = .error e → s.fault = false →
    issueWord w s = .next { s with fault := true, cause := .illegalEncoding, rsp := none })

/-- Rule R84: the four formats by match and mask with their operands, their bit patterns, that the rows are disjoint,
and the 262 legal words. -/
def Obligations.FormatsAreThoseOfTheRule : Prop :=
  (∀ w : CmdWord, w &&& 0xCFF = 0x000 ↔ decode w = .ok (.init (variantOfCode (varField w)))) ∧
  (∀ w : CmdWord, w &&& 0xF00 = 0x400 ↔ decode w = .ok (.absorb (dataField w))) ∧
  (∀ w : CmdWord, w &&& 0xFFF = 0x800 ↔ decode w = .ok .finalize) ∧
  (∀ w : CmdWord, w &&& 0xFFF = 0xC00 ↔ decode w = .ok .squeeze) ∧
  (∀ v : Variant, encode (.init v) = 0b00#2 ++ variantCode v ++ 0b00000000#8) ∧
  (∀ b : Byte, encode (.absorb b) = 0b01#2 ++ 0b00#2 ++ b) ∧
  encode .finalize = 0b100000000000#12 ∧ encode .squeeze = 0b110000000000#12 ∧
  (∀ (w : CmdWord), ∀ r ∈ opcodeRows, ∀ r' ∈ opcodeRows, r.selects w = true → r'.selects w = true → r = r') ∧
  opcodeRows.map (fun r => Nat.card { w : CmdWord // r.selects w = true }) = [4, 256, 1, 1] ∧
  Nat.card { w : CmdWord // ∃ i, decode w = .ok i } = 262

/-- Words written out from rule R84, one of each command and one illegal word of each kind, decode to what they
stand for (vectors V-ENC of 95_test_vectors.md). -/
def Obligations.SampleWordsDecode : Prop :=
  decode 0b000100000000#12 = .ok (.init .sha3_256) ∧ decode 0b001100000000#12 = .ok (.init .sha3_512) ∧
  decode 0b010001100001#12 = .ok (.absorb 0x61) ∧ decode 0b100000000000#12 = .ok .finalize ∧
  decode 0b110000000000#12 = .ok .squeeze ∧ decode 0b000000000001#12 = .error .initData ∧
  decode 0b010100000000#12 = .error .absorbVar ∧ decode 0b100000000001#12 = .error .finalizeReserved ∧
  decode 0b110100000000#12 = .error .squeezeReserved

/-! ### The channel and the step -/

/-- A step runs the decoded command: when the word the host issues next decodes to `i`, the step is `exec i` at the
state with that word taken off the host's list. There is no program counter to move (rule R30). -/
def Obligations.StepRunsTheIssuedCommand : Prop :=
  (∀ (s : State) (w : CmdWord) (rest : List HostEvent) (i : Instr),
    s.inputs = .issue w :: rest → decode w = .ok i → step s = exec i { s with inputs := rest }) ∧
  (∀ (s : State) (i : Instr), step (s.withFetchWord 16 (encode i).toNat) = exec i s)

/-- Rule R140, the prologue every issued word goes through, its three cases in order. -/
def Obligations.PrologueOfAnIssuedWord : Prop :=
  ∀ (s : State) (w : CmdWord) (rest : List HostEvent), s.inputs = .issue w :: rest →
    (s.fault = true → step s = .next { s with inputs := rest, rsp := none }) ∧
    (s.fault = false → ∀ e, decode w = .error e →
      step s = .next { s with inputs := rest, fault := true, cause := .illegalEncoding, rsp := none }) ∧
    (s.fault = false → ∀ i, decode w = .ok i → step s = exec i { s with inputs := rest })

/-- Rule R185: the order of the checks on one word, first match wins. The premise `Inv` is the invariant of rule R36,
outside which the spec gives no behaviour (U3). -/
def Obligations.ChecksComeInTheOrderOfTheRule : Prop :=
  ∀ (s : State) (w : CmdWord), Inv s →
    (s.fault = true → issueWord w s = .next { s with rsp := none }) ∧
    (s.fault = false → (∃ e, decode w = .error e) →
      issueWord w s = .next { s with fault := true, cause := .illegalEncoding, rsp := none }) ∧
    (s.fault = false → ∀ i, decode w = .ok i →
      ((((∃ b, i = .absorb b) ∨ i = .finalize) ∧ s.phase ≠ .absorb) ∨ (i = .squeeze ∧ s.phase ≠ .squeeze) →
        issueWord w s = .next { s with fault := true, cause := .phaseViolation, rsp := none }) ∧
      (i = .squeeze ∧ s.phase = .squeeze ∧ s.cursor.toNat = (lut s.variant).outputBytes →
        issueWord w s = .next { s with fault := true, cause := .squeezeOverrun, rsp := none }) ∧
      ((∃ v, i = .init v) ∨ (((∃ b, i = .absorb b) ∨ i = .finalize) ∧ s.phase = .absorb) ∨
          (i = .squeeze ∧ s.phase = .squeeze ∧ s.cursor.toNat ≠ (lut s.variant).outputBytes) →
        ∃ t, issueWord w s = .next t ∧ t.fault = false))

/-- A reset event gives the reset state, between two commands and during one (rules R210, R211): every register of
the engine takes its reset value and no response is delivered. The model's choices in it: a reset during a command is
one step from the state before that command (log entry 1, DEDUCED from R211), and the host's lists stay as they were
but for the event itself (log entry 13, DESIGN CHOICE). -/
def Obligations.ResetEventGivesTheResetState : Prop :=
  ∀ (s : State) (e : HostEvent) (rest : List HostEvent), s.inputs = e :: rest →
    (e = .reset ∨ ∃ w, e = .resetDuring w) →
    step s = .next { lanes := Lanes.zero, cursor := 0, variant := .sha3_224, phase := .idle, fault := false,
                     cause := .noFault, rsp := none, inputs := rest, received := s.received }

/-- Rule R37: the reset value of every piece of the engine's state. -/
def Obligations.ResetValuesOfTheEngine : Prop :=
  (∀ x y, State.reset.lanes.at x y = 0) ∧ State.reset.cursor = 0 ∧ variantCode State.reset.variant = 0 ∧
  phaseCode State.reset.phase = 0 ∧ State.reset.fault = false ∧ causeCode State.reset.cause = 0

/-- Only a reset event clears `fault` and `cause`, and only one returns `phase` to IDLE (rules R29, R188, R211). -/
def Obligations.OnlyResetClearsTheFault : Prop :=
  ∀ s t : State, step s = .next t → (∀ e ∈ s.inputs.head?, e.isReset = false) →
    (s.fault = true → SameEngine s t ∧ t.rsp = none ∧ t.received = s.received) ∧
    (s.phase ≠ .idle → t.phase ≠ .idle)

/-- Between commands the state holds while the host issues nothing (rules R154, R198). The response port offering
nothing meanwhile is the model's form of "a response byte is offered once" (rule R92; log entry 3). -/
def Obligations.StateHoldsWhileTheHostWaits : Prop :=
  (∀ s : State, s.inputs = [] → step s = .next { s with rsp := none }) ∧
  (∀ (s : State) (rest : List HostEvent), s.inputs = .wait :: rest → step s = .next { s with inputs := rest, rsp := none })

/-- "A SQUEEZE that does not fault produces exactly one response byte ... every other command, and every faulting
command, produces none" (rule R92), over all events. -/
def Obligations.OnlyASuccessfulSqueezeResponds : Prop :=
  ∀ s t : State, step s = .next t →
    (t.rsp = none ∧ t.received = s.received) ∨
    (∃ (k : Addr) (rest : List HostEvent), s.inputs = .issue (encode .squeeze) :: rest ∧ s.phase = .squeeze ∧
      s.fault = false ∧ t.fault = false ∧ k.val = s.cursor.toNat ∧ k.val < (lut s.variant).outputBytes ∧
      t.rsp = some (readByte s.lanes k) ∧ t.received = s.received ++ [readByte s.lanes k])

/-- Rule R31: the status outputs are the registers themselves by their codes, and `digest_ready`. -/
def Obligations.StatusOutputsAreTheRegisters : Prop :=
  (∀ s : State, (outputs s).phase = phaseCode s.phase ∧ (outputs s).fault = s.fault ∧
    (outputs s).cause = causeCode s.cause ∧
    (digestReady s = true ↔ (outputs s).phase = 2 ∧ (outputs s).fault = false)) ∧
  (∀ p q, phaseCode p = phaseCode q → p = q) ∧ (∀ c d, causeCode c = causeCode d → c = d)

/-! ### The four commands -/

/-- Rule R141, `INIT v`: its words, its effect in every phase, which completes it, that it does not clear `fault`,
that a later INIT wipes out an earlier, and that nothing of an old computation survives: from the reset state it gives
the same engine. -/
def Obligations.InitByItsRule : Prop :=
  ∀ v : Variant, encode (.init v) = 0b00#2 ++ variantCode v ++ 0x00#8 ∧
    ∀ s : State,
      (s.fault = true → exec (.init v) s = .next { s with rsp := none }) ∧
      (s.fault = false →
        exec (.init v) s =
          .next { s with lanes := Lanes.zero, cursor := 0, variant := v, phase := .absorb, rsp := none } ∧
        (∀ (u : Variant) (t : State), exec (.init u) s = .next t → exec (.init v) t = exec (.init v) s) ∧
        (∀ t r : State, s.cause = .noFault → exec (.init v) s = .next t → exec (.init v) State.reset = .next r →
          SameEngine t r))

/-- Rule R142, `ABSORB b`: its words, the phase violation, and in phase ABSORB with `cursor < rate` (invariant I3)
both ways it completes, the one that fills the block and the one that does not; afterwards `cursor < rate`. A zero
byte changes no lane but counts all the same. -/
def Obligations.AbsorbByItsRule : Prop :=
  ∀ b : Byte, encode (.absorb b) = 0b01#2 ++ 0b00#2 ++ b ∧
    (∀ (a : Lanes) (k : Addr), xorByte a k 0x00 = a) ∧
    ∀ s : State, s.fault = false →
      (s.phase ≠ .absorb →
        exec (.absorb b) s = .next { s with fault := true, cause := .phaseViolation, rsp := none }) ∧
      (s.phase = .absorb → s.cursor.toNat < (lut s.variant).rateBytes → ∀ k : Addr, k.val = s.cursor.toNat →
        (s.cursor.toNat + 1 = (lut s.variant).rateBytes →
          exec (.absorb b) s =
            .next { s with lanes := permute (xorByte s.lanes k b), cursor := 0, rsp := none }) ∧
        (s.cursor.toNat + 1 ≠ (lut s.variant).rateBytes →
          exec (.absorb b) s =
              .next { s with lanes := xorByte s.lanes k b, cursor := s.cursor + 1, rsp := none } ∧
            (s.cursor + 1).toNat = s.cursor.toNat + 1 ∧ (s.cursor + 1).toNat < (lut s.variant).rateBytes))

/-- Rule R143, `FINALIZE`: its word, the phase violation, and in phase ABSORB with `cursor < rate` (invariant I3) the
two XORs, the one permutation and the entry of phase SQUEEZE; when `cursor == rate - 1` the two XORs are one by 0x86. -/
def Obligations.FinalizeByItsRule : Prop :=
  encode .finalize = 0b100000000000#12 ∧
  ∀ s : State, s.fault = false →
    (s.phase ≠ .absorb →
      exec .finalize s = .next { s with fault := true, cause := .phaseViolation, rsp := none }) ∧
    (s.phase = .absorb → s.cursor.toNat < (lut s.variant).rateBytes → ∀ k p : Addr, k.val = s.cursor.toNat →
      p.val = (lut s.variant).rateBytes - 1 →
      (lut s.variant).domainSeparator = 0x06 ∧
      exec .finalize s =
        .next { s with lanes := permute (xorByte (xorByte s.lanes k (lut s.variant).domainSeparator) p 0x80),
                       cursor := 0, phase := .squeeze, rsp := none } ∧
      (k = p → xorByte (xorByte s.lanes k (lut s.variant).domainSeparator) p 0x80 = xorByte s.lanes p 0x86))

/-- Rule R145, `SQUEEZE`: its word, the phase violation, the overrun, and with `cursor < outlen` the next digest byte,
no lane changed. -/
def Obligations.SqueezeByItsRule : Prop :=
  encode .squeeze = 0b110000000000#12 ∧
  ∀ s : State, s.fault = false →
    (s.phase ≠ .squeeze →
      exec .squeeze s = .next { s with fault := true, cause := .phaseViolation, rsp := none }) ∧
    (s.phase = .squeeze → s.cursor.toNat = (lut s.variant).outputBytes →
      exec .squeeze s = .next { s with fault := true, cause := .squeezeOverrun, rsp := none }) ∧
    (s.phase = .squeeze → s.cursor.toNat < (lut s.variant).outputBytes → ∀ k : Addr, k.val = s.cursor.toNat →
      exec .squeeze s =
          .next { s with cursor := s.cursor + 1, rsp := some (readByte s.lanes k),
                         received := s.received ++ [readByte s.lanes k] } ∧
        (s.cursor + 1).toNat = s.cursor.toNat + 1)

/-- Rule R183: the table of which command is executed in which phase, over the states of the invariant of rule R36. -/
def Obligations.PhaseTable : Prop :=
  ∀ s : State, Inv s → s.fault = false →
    (∀ v, ∃ t, exec (.init v) s = .next t ∧ t.fault = false ∧ t.phase = .absorb) ∧
    (s.phase = .idle ∨ s.phase = .squeeze →
      (∀ b, ∃ t, exec (.absorb b) s = .next t ∧ t.fault = true ∧ causeCode t.cause = 2) ∧
      (∃ t, exec .finalize s = .next t ∧ t.fault = true ∧ causeCode t.cause = 2)) ∧
    (s.phase = .absorb →
      (∀ b, ∃ t, exec (.absorb b) s = .next t ∧ t.fault = false ∧ t.phase = .absorb) ∧
      (∃ t, exec .finalize s = .next t ∧ t.fault = false ∧ t.phase = .squeeze)) ∧
    (s.phase = .idle ∨ s.phase = .absorb →
      ∃ t, exec .squeeze s = .next t ∧ t.fault = true ∧ causeCode t.cause = 2) ∧
    (s.phase = .squeeze → s.cursor.toNat = (lut s.variant).outputBytes →
      ∃ t, exec .squeeze s = .next t ∧ t.fault = true ∧ causeCode t.cause = 3) ∧
    (s.phase = .squeeze → s.cursor.toNat ≠ (lut s.variant).outputBytes →
      ∃ t, exec .squeeze s = .next t ∧ t.fault = false ∧ t.phase = .squeeze)

/-- The model's stop outside the invariant (U3: "it does not define behaviour for states outside it (`refuse`)"; log
entry 4): ABSORB and FINALIZE with `cursor >= rate`, SQUEEZE with `cursor > outlen`. -/
def Obligations.CursorOutOfRangeIsRefused : Prop :=
  ∀ s : State, s.fault = false →
    (s.phase = .absorb → (lut s.variant).rateBytes ≤ s.cursor.toNat →
      (∀ b, exec (.absorb b) s = .refused .cursorOutOfRange) ∧ exec .finalize s = .refused .cursorOutOfRange) ∧
    (s.phase = .squeeze → (lut s.variant).outputBytes < s.cursor.toNat →
      exec .squeeze s = .refused .cursorOutOfRange)

/-! ### Faults -/

/-- Rule R186: whatever raises a fault sets `fault` and `cause` and changes nothing else; no response is produced.
(The event itself leaves the host's list.) -/
def Obligations.FaultEntryIsPrecise : Prop :=
  ∀ s t : State, step s = .next t → s.fault = false → t.fault = true →
    t = { s with inputs := s.inputs.tail, fault := true, cause := t.cause, rsp := none } ∧ t.cause ≠ .noFault

/-- Which commands raise which cause (rule R181): INIT none of its own, ABSORB and FINALIZE a phase violation in a
phase that is not ABSORB, SQUEEZE a phase violation outside phase SQUEEZE or an overrun at `cursor == outlen`. -/
def Obligations.CausesAreRaisedByTheirCommands : Prop :=
  ∀ (i : Instr) (s t : State), s.fault = false → exec i s = .next t → t.fault = true →
    (t.cause = .phaseViolation ∧
      ((((∃ b, i = .absorb b) ∨ i = .finalize) ∧ s.phase ≠ .absorb) ∨ (i = .squeeze ∧ s.phase ≠ .squeeze))) ∨
    (t.cause = .squeezeOverrun ∧ i = .squeeze ∧ s.phase = .squeeze ∧
      s.cursor.toNat = (lut s.variant).outputBytes)

/-- The fault state is absorbing (rule R187): every issued word, legal or not, and every command is discarded with no
response. The last two clauses, no successful step and never complete, are the model's reading of that rule (log
entry 6, DEDUCED): they hold by the definitions `SuccessfulStep` and `Complete`, both of which ask for `fault = 0`. -/
def Obligations.FaultStateIsAbsorbing : Prop :=
  ∀ s : State, s.fault = true →
    (∀ w : CmdWord, issueWord w s = .next { s with rsp := none }) ∧
    (∀ i : Instr, exec i s = .next { s with rsp := none }) ∧
    (∀ t : State, ¬ SuccessfulStep s t) ∧ ¬ Complete s

/-! ### Frames -/

/-- What each command may write (rules R24, R26, R27, R28), over all commands and states: only INIT the variant, only
INIT and FINALIZE the phase, SQUEEZE no lane, only SQUEEZE the host's received bytes, and `fault` and `cause` only on
fault entry; no command touches the host's list of events. -/
def Obligations.CommandsWriteOnlyTheirRegisters : Prop :=
  ∀ (i : Instr) (s t : State), exec i s = .next t →
    t.inputs = s.inputs ∧
    ((∀ v, i ≠ .init v) → t.variant = s.variant) ∧
    ((∀ v, i ≠ .init v) → i ≠ .finalize → t.phase = s.phase) ∧
    (i = .squeeze → ∀ k, readByte t.lanes k = readByte s.lanes k) ∧
    (i ≠ .squeeze → t.received = s.received ∧ t.rsp = none) ∧
    (t.fault = s.fault → t.cause = s.cause) ∧ (s.fault = true → t.fault = true) ∧
    (s.fault = false → t.fault = true → ∀ k, readByte t.lanes k = readByte s.lanes k)

/-- The frame of an ABSORB in phase ABSORB: it stores to the byte at the address its meaning computes and to no other
(before the permutation where it fills the block), and leaves every register but `cursor`. -/
def Obligations.AbsorbStoresOneByte : Prop :=
  ∀ (b : Byte) (s t : State) (k : Addr), s.fault = false → s.phase = .absorb →
    cursorAddr s (lutRead s).rateBytes = some k → exec (.absorb b) s = .next t →
    t.variant = s.variant ∧ t.phase = s.phase ∧ t.fault = s.fault ∧ t.cause = s.cause ∧ t.rsp = none ∧
    t.inputs = s.inputs ∧ t.received = s.received ∧
    ∃ u : Lanes, readByte u k = readByte s.lanes k ^^^ b ∧ (∀ j, j ≠ k → readByte u j = readByte s.lanes j) ∧
      (s.cursor.toNat + 1 = (lutRead s).rateBytes → t.lanes = permute u) ∧
      (s.cursor.toNat + 1 ≠ (lutRead s).rateBytes → t.lanes = u)

/-- Rule R144, the padding as FINALIZE applies it, with its frame: the byte at `t = cursor` takes 0x06, the byte at
`rate - 1` takes 0x80, one byte takes 0x86 when they meet, and no other byte changes before the permutation. The
padding lies within one block, since `t < rate`. -/
def Obligations.FinalizePadsTwoBytes : Prop :=
  (0x06 ^^^ 0x80 : Byte) = 0x86 ∧ (0x06 ||| 0x80 : Byte) = 0x86 ∧ (∀ v, 72 ≤ (lut v).rateBytes) ∧
  ∀ (s t : State) (k : Addr), s.fault = false → s.phase = .absorb →
    cursorAddr s (lutRead s).rateBytes = some k → exec .finalize s = .next t →
    t.variant = s.variant ∧ t.fault = s.fault ∧ t.cause = s.cause ∧ t.rsp = none ∧ t.inputs = s.inputs ∧
    t.received = s.received ∧ t.phase = .squeeze ∧ k.val < (lutRead s).rateBytes ∧
    ∃ u : Lanes, t.lanes = permute u ∧
      (∀ j : Addr, j ≠ k → j.val ≠ (lutRead s).rateBytes - 1 → readByte u j = readByte s.lanes j) ∧
      (k.val ≠ (lutRead s).rateBytes - 1 →
        readByte u k = readByte s.lanes k ^^^ 0x06 ∧
        ∀ j : Addr, j.val = (lutRead s).rateBytes - 1 → readByte u j = readByte s.lanes j ^^^ 0x80) ∧
      (k.val = (lutRead s).rateBytes - 1 → readByte u k = readByte s.lanes k ^^^ 0x86)

/-- The frame of a SQUEEZE that returns a byte: every lane, the variant, the phase, the fault bits and the host's
events stay. -/
def Obligations.SqueezeFrame : Prop :=
  ∀ s t : State, s.fault = false → exec .squeeze s = .next t →
    t.lanes = s.lanes ∧ t.variant = s.variant ∧ t.phase = s.phase ∧ t.inputs = s.inputs ∧
    (t.fault = false → t.cause = s.cause ∧ t.cursor.toNat = s.cursor.toNat + 1 ∧ t.rsp.isSome = true) ∧
    (t.fault = true → t.cursor = s.cursor ∧ t.rsp = none ∧ t.received = s.received)

/-- Rule R59: no command generates an address in the capacity region, so before any permutation the bytes from `rate`
on are as they were, and a SQUEEZE reads below `outlen <= rate`. -/
def Obligations.CapacityRegionIsNeverAddressed : Prop :=
  ∀ (s : State) (j : Addr), (lut s.variant).rateBytes ≤ j.val →
    (∀ k, cursorAddr s (lutRead s).rateBytes = some k → k ≠ j) ∧
    (∀ k, cursorAddr s (lutRead s).outputBytes = some k → k ≠ j) ∧ padAddr s.variant ≠ j ∧
    (∀ (b : Byte) (t : State), s.fault = false → s.phase = .absorb →
      s.cursor.toNat + 1 ≠ (lut s.variant).rateBytes → exec (.absorb b) s = .next t →
      readByte t.lanes j = readByte s.lanes j) ∧
    (∀ k, cursorAddr s (lutRead s).rateBytes = some k →
      readByte (padState s.variant k s.lanes) j = readByte s.lanes j)

/-- Only the digest bytes leave the block (rule R197, decision D17): two engines that agree in every register and on
the first `outlen` bytes, whatever else their lanes hold, answer a SQUEEZE alike. -/
def Obligations.SqueezeShowsOnlyDigestBytes : Prop :=
  ∀ (s s' t : State) (a : Lanes), s' = { s with lanes := a } →
    (∀ k : Addr, k.val < (lut s.variant).outputBytes → readByte a k = readByte s.lanes k) →
    exec .squeeze s = .next t → exec .squeeze s' = .next { t with lanes := a }

/-! ### Invariants -/

/-- Rule R36: every step keeps the invariants I1 to I5, from every state that has them. -/
def Obligations.StepKeepsTheInvariant : Prop :=
  ∀ s t : State, Inv s → step s = .next t → Inv t

/-- The reset state has the invariants of rule R36. -/
def Obligations.ResetHasTheInvariant : Prop := Inv State.reset

/-- Every issued command completes (rule R220): from a state of the invariant every event has a next state, with no
fault or refusal of the model, for every word and every content of the lanes. -/
def Obligations.InvariantStatesAlwaysStep : Prop :=
  ∀ s : State, Inv s → ∃ t, step s = .next t

/-- The variant cannot change during a computation (rule R27): a step that changes it runs an INIT of the new variant
or is a reset event. -/
def Obligations.OnlyInitOrResetChangesTheVariant : Prop :=
  ∀ s t : State, step s = .next t → t.variant ≠ s.variant →
    (∃ rest, s.inputs = .issue (encode (.init t.variant)) :: rest ∧ s.fault = false) ∨
    (∃ e rest, s.inputs = e :: rest ∧ e.isReset = true ∧ t.variant = .sha3_224)

/-! ### The constant tables -/

/-- Rule R170: the four rows of the LUT by code, their rates in bits and derived capacities. -/
def Obligations.VariantLutRows : Prop :=
  lut (variantOfCode 0) = ⟨144, 28, 0x06⟩ ∧ lut (variantOfCode 1) = ⟨136, 32, 0x06⟩ ∧
  lut (variantOfCode 2) = ⟨104, 48, 0x06⟩ ∧ lut (variantOfCode 3) = ⟨72, 64, 0x06⟩ ∧
  (∀ c, variantCode (variantOfCode c) = c) ∧
  (∀ v, 8 * (lut v).rateBytes + capacityBits v = 1600) ∧
  [Variant.sha3_224, .sha3_256, .sha3_384, .sha3_512].map capacityBits = [448, 512, 768, 1024]

/-- Rule R173: the properties (a) to (d) of every row. -/
def Obligations.VariantLutProperties : Prop :=
  ∀ v : Variant, (lut v).outputBytes ≤ (lut v).rateBytes ∧
    ((lut v).rateBytes % 8 = 0 ∧ 72 ≤ (lut v).rateBytes ∧ (lut v).rateBytes ≤ 144 ∧ (lut v).rateBytes < 200) ∧
    (lut v).domainSeparator &&& 0x80 = 0 ∧ (lut v).outputBytes < (lut v).rateBytes ∧ (lut v).wf = true

/-- The rotation offsets by flat lane index, with two entries by coordinates that the document's own label transposes
(rule R112, conflict C1), and the first and last round constants with the two equal pairs (rule R113). -/
def Obligations.RotationAndRoundConstants : Prop :=
  ((List.finRange 25).map fun i => rot (Fin.ofNat 5 i.val) (Fin.ofNat 5 (i.val / 5))) =
    [0, 1, 62, 28, 27, 36, 44, 6, 55, 20, 3, 10, 43, 25, 39, 41, 45, 15, 21, 8, 18, 2, 61, 56, 14] ∧
  rot 1 0 = 1 ∧ rot 0 1 = 36 ∧ rc 0 = 0x0000000000000001 ∧ rc 23 = 0x8000000080008008 ∧ rc 5 = rc 22 ∧
  rc 6 = rc 20 ∧ ∀ i, rc i &&& ~~~0x800000008000808B = 0

/-! ### The byte view -/

/-- Rule R22: `SB[k]` is eight bits of lane `L[k div 8]`, and lane `L[i]` is its eight bytes, `SB[8i]` least
significant; with the flat index `i = 5*y + x`. -/
def Obligations.ByteViewOfTheLanes : Prop :=
  ∀ (a : Lanes) (x y : Fin 5) (i : Fin 25), i.val = 5 * y.val + x.val →
    (∀ k : Addr, k.val / 8 = i.val → readByte a k = (a.at x y).extractLsb' (8 * (k.val % 8)) 8) ∧
    a.at x y = readLane a i

/-- Rule R23: bit `j` of `SB[k]` is bit `8*(k mod 8) + j` of its lane, and XORing a byte into `SB[k]` is the XOR of the
shifted byte into that lane alone. -/
def Obligations.XorIntoAByteIsXorIntoItsLane : Prop :=
  ∀ (a : Lanes) (k : Addr) (v : Byte) (x y : Fin 5), k.val / 8 = 5 * y.val + x.val →
    (∀ j, j < 8 → (readByte a k).getLsbD j = (a.at x y).getLsbD (8 * (k.val % 8) + j)) ∧
    (xorByte a k v).at x y = a.at x y ^^^ (v.setWidth 64 <<< (8 * (k.val % 8))) ∧
    (∀ x' y', (x', y') ≠ (x, y) → (xorByte a k v).at x' y' = a.at x' y')

/-- The state byte space is one 200-byte store with the lanes (rule R50): equal byte contents are equal lanes, and the
model's sparse listing of it (log entry 2) determines it. -/
def Obligations.ByteSpaceDeterminesTheLanes : Prop :=
  (∀ a b : Lanes, (∀ k, readByte a k = readByte b k) → a = b) ∧
  (∀ a b : Lanes, memoryCells a = memoryCells b → a = b)

/-! ### The permutation -/

/-- Rule R11: `rol64(v, 0) = v`, and bit `i` of `v` becomes bit `(i + n) mod 64` of the result. -/
def Obligations.RotateLeftMovesBits : Prop :=
  (∀ v : Lane, rol64 v 0 = v) ∧
  ∀ (v : Lane) (n i : Nat), n < 64 → i < 64 → (rol64 v n).getLsbD ((i + n) % 64) = v.getLsbD i

/-- Rule R114, `THETA`, lane by lane, with its fixed point. -/
def Obligations.ThetaByItsRule : Prop :=
  (∀ (a : Lanes) (c d : Fin 5 → Lane),
    (∀ x, c x = a.at x 0 ^^^ a.at x 1 ^^^ a.at x 2 ^^^ a.at x 3 ^^^ a.at x 4) →
    (∀ x, d x = c (x + 4) ^^^ rol64 (c (x + 1)) 1) → ∀ x y, (theta a).at x y = a.at x y ^^^ d x) ∧
  theta Lanes.zero = Lanes.zero

/-- Rule R115, `RHOPI`, source by source, with the bijection of positions, its only fixed point, and the corner cases
of the offsets. -/
def Obligations.RhoPiByItsRule : Prop :=
  (∀ (a : Lanes) (x y : Fin 5), (rhopi a).at y (2 * x + 3 * y) = rol64 (a.at x y) (rot x y)) ∧
  Function.Bijective (fun p : Fin 5 × Fin 5 => (p.2, 2 * p.1 + 3 * p.2)) ∧
  (∀ p : Fin 5 × Fin 5, (p.2, 2 * p.1 + 3 * p.2) = p ↔ p = (0, 0)) ∧
  (∀ x y, (x, y) ≠ (0, 0) → 1 ≤ rot x y ∧ rot x y ≤ 62) ∧
  (∀ x y x' y', rot x y = rot x' y' → (x, y) = (x', y')) ∧ rhopi Lanes.zero = Lanes.zero

/-- Rule R116, `CHI`, with its corner cases: an all-zero row and an all-ones row stay. -/
def Obligations.ChiByItsRule : Prop :=
  (∀ (b : Lanes) (x y : Fin 5), (chi b).at x y = b.at x y ^^^ (~~~(b.at (x + 1) y) &&& b.at (x + 2) y)) ∧
  (∀ (b : Lanes) (y : Fin 5), (∀ x, b.at x y = 0) → ∀ x, (chi b).at x y = 0) ∧
  (∀ (b : Lanes) (y : Fin 5), (∀ x, b.at x y = BitVec.allOnes 64) → ∀ x, (chi b).at x y = BitVec.allOnes 64)

/-- Rule R117, `IOTA(i)`: lane (0, 0) only; it is its own inverse. -/
def Obligations.IotaByItsRule : Prop :=
  ∀ (a : Lanes) (i : Fin 24), (iota i a).at 0 0 = a.at 0 0 ^^^ rc i ∧
    (∀ x y, (x, y) ≠ (0, 0) → (iota i a).at x y = a.at x y) ∧ iota i (iota i a) = a

/-- Rules R118 and R120: ROUND is theta, rho-pi, chi, iota in this order, and PERMUTE is the rounds 0 to 23 in order,
each on the output of the one before. -/
def Obligations.PermuteRunsTheRoundsInOrder : Prop :=
  (∀ (i : Fin 24) (a : Lanes), keccakRound i a = iota i (chi (rhopi (theta a)))) ∧
  ∀ (a : Lanes) (st : Nat → Lanes), st 0 = a → (∀ i : Fin 24, st (i.val + 1) = keccakRound i (st i.val)) →
    permute a = st 24

/-- Rule R122, the reference check: PERMUTE of the all-zero state is V-PERM-1 (columns x of lanes y = 0..4). -/
def Obligations.PermuteOfZeroIsTheReference : Prop :=
  permute Lanes.zero =
    ⟨⟨0xF1258F7940E1DDE7, 0xFF97A42D7F8E6FD4, 0xEB5AA93F2317D635, 0x05E5635A21D9AE61, 0x940C7922AE3A2614⟩,
     ⟨0x84D5CCF933C0478A, 0x90FEE5A0A44647C4, 0xA9A6E6260D712103, 0x64BEFEF28CC970F2, 0x1841F924A2C509E4⟩,
     ⟨0xD598261EA65AA9EE, 0x8C5BDA0CD6192E76, 0x81A57C16DBCF555F, 0x613670957BC46611, 0x16F53526E70465C2⟩,
     ⟨0xBD1547306F80494D, 0xAD30A6F71B19059C, 0x43B831CD0347C826, 0xB87C5A554FD00ECB, 0x75F644E97F30A13B⟩,
     ⟨0x8B284E056253D057, 0x30935AB7D08FFC64, 0x01F22F1A11A5569F, 0x8C3EE88A1CCF32C8, 0xEAF1FF7B5CECA249⟩⟩

/-! ### Whole computations -/

/-- Rules R152 and R223: from any state with no fault, the words of `INIT v`, the message's ABSORBs, `FINALIZE` and
`outlen` SQUEEZEs, run step by step, complete the computation (rule R217), and the host receives exactly the bytes of
the sponge function of rule R152, which is written on the message and not on the commands. From a state with a fault
the same words return nothing. -/
def Obligations.ComputationReturnsTheDigest : Prop :=
  ∀ (v : Variant) (m : List Byte) (s : State) (rest : List HostEvent),
    s.inputs = issueAll (hashProgram v m) ++ rest →
    ∃ t : State, Host.Core.run Sys2Proof.core (hashProgram v m).length s = .next t ∧ t.inputs = rest ∧
      t.cause = s.cause ∧
      (s.fault = false → Complete t ∧ t.variant = v ∧ t.received = s.received ++ digest v m ∧
        t.lanes = finalLanes v m) ∧
      (s.fault = true → t = { s with inputs := rest, rsp := none })

/-- Rule R148: after FINALIZE exactly `outlen` SQUEEZEs succeed, returning the first bytes in order, and the next one
raises SQUEEZE_OVERRUN. -/
def Obligations.ExactlyOutlenSqueezesSucceed : Prop :=
  ∀ s : State, s.fault = false → s.phase = .squeeze → s.cursor = 0 →
    (∀ n, n ≤ (lut s.variant).outputBytes →
      ∃ t : State, execAll (List.replicate n .squeeze) s = .next t ∧ t.fault = false ∧ t.cursor.toNat = n ∧
        t.received = s.received ++ firstBytes s.lanes n ∧ t.lanes = s.lanes) ∧
    ∃ t : State, execAll (List.replicate ((lut s.variant).outputBytes + 1) .squeeze) s = .next t ∧
      t.fault = true ∧ t.cause = .squeezeOverrun ∧
      t.received = s.received ++ firstBytes s.lanes (lut s.variant).outputBytes

/-- Rules R150 and R151: every message of every length is absorbed without a fault, the cursor counting modulo the
rate, and can then be finalized. -/
def Obligations.EveryMessageIsAbsorbed : Prop :=
  ∀ (m : List Byte) (s : State), s.fault = false → s.phase = .absorb → s.cursor.toNat < (lut s.variant).rateBytes →
    ∃ t : State, execAll (absorbBytes m) s = .next t ∧ t.fault = false ∧ t.phase = .absorb ∧
      t.variant = s.variant ∧ t.cursor.toNat = (s.cursor.toNat + m.length) % (lut s.variant).rateBytes ∧
      ∃ u : State, exec .finalize t = .next u ∧ u.fault = false ∧ u.phase = .squeeze

/-- Rule R147: absorbing `a` and then `b` is absorbing `a + b`, for commands and for the digest of the programs that
the pseudo-commands assemble to. -/
def Obligations.AbsorbIsChunkInvariant : Prop :=
  (∀ (a b : List Byte) (s t : State), execAll (absorbBytes a) s = .next t →
    execAll (absorbBytes (a ++ b)) s = execAll (absorbBytes b) t) ∧
  (∀ (v : Variant) (xs ys : List AsmByte),
    assemble none [.init (.name v), .absorbBytes xs, .absorbBytes ys, .finalizeAndSqueeze] =
      assemble none [.hash (.name v) (xs ++ ys)])

/-- Rule R149: nothing that happened before the INIT has any influence. From two states of the invariant with no fault,
an INIT and then the same commands leave the same engine and return the same bytes. -/
def Obligations.InitForgetsThePast : Prop :=
  ∀ (v : Variant) (p : List Instr) (s s' t : State), Inv s → Inv s' → s.fault = false → s'.fault = false →
    execAll (.init v :: p) s = .next t →
    ∃ (t' : State) (r : List Byte), execAll (.init v :: p) s' = .next t' ∧ SameEngine t t' ∧ t.rsp = t'.rsp ∧
      t.received = s.received ++ r ∧ t'.received = s'.received ++ r

/-- Rule R153: the buffered machine of the document's section 4.2 is equivalent. After any message the engine's lanes
are the buffered machine's with its buffer XORed in, so they are equal whenever the buffer is empty, and FINALIZE gives
the lanes that the buffered machine's padded block gives. -/
def Obligations.BufferedMachineIsEquivalent : Prop :=
  ∀ (v : Variant) (msg : List Byte) (s : State) (m : Buffered), s.fault = false →
    m = msg.foldl (bufferedAbsorb v) Buffered.fresh →
    ∃ t u : State, execAll (.init v :: absorbBytes msg) s = .next t ∧ t.lanes = xorBytes m.lanes 0 m.buffer ∧
      t.cursor.toNat = m.buffer.length ∧ exec .finalize t = .next u ∧ u.lanes = bufferedFinalize v m

/-! ### Assembler syntax -/

/-- Rule R91: each pseudo-command's expansion; the HASH expansion is INIT, one ABSORB a byte, FINALIZE and `outlen`
SQUEEZEs. -/
def Obligations.PseudoCommandsExpand : Prop :=
  (∀ (c : Option Variant) (v : Variant), expandLine c (.newContext v) = some [.init v]) ∧
  (∀ (c : Option Variant) (bs : List Byte),
    expandLine c (.absorbBytes (bs.map fun b => .number b.toNat)) = some (bs.map .absorb)) ∧
  (∀ v : Variant, expandLine (some v) .finalizeAndSqueeze =
    some (.finalize :: List.replicate (lut v).outputBytes .squeeze)) ∧
  (∀ (c : Option Variant) (v : Variant) (bs : List Byte),
    expandLine c (.hash (.name v) (bs.map fun b => .number b.toNat)) =
      some (.init v :: bs.map .absorb ++ .finalize :: List.replicate (lut v).outputBytes .squeeze))

/-- A line of the syntax of rules R90 and R91 stands for commands exactly when its operands are well-formed (a variant
0..3, bytes 0..255 or ASCII characters), in a computation whose variant is known. -/
def Obligations.WellFormedLinesExpand : Prop :=
  ∀ (v : Variant) (l : AsmLine), (expandLine (some v) l).isSome = l.wf
end

