-- ==== Sys2Proof/Laws/State.lean ====
section
/-! SUPPORT. One lemma per field and update of the state, true by unfolding the update. -/

namespace Sys2Proof.Machine

section takeInput
variable (rest : List HostEvent) (s : State)
@[simp] theorem takeInput_lanes : (takeInput rest s).lanes = s.lanes := rfl
@[simp] theorem takeInput_cursor : (takeInput rest s).cursor = s.cursor := rfl
@[simp] theorem takeInput_variant : (takeInput rest s).variant = s.variant := rfl
@[simp] theorem takeInput_phase : (takeInput rest s).phase = s.phase := rfl
@[simp] theorem takeInput_fault : (takeInput rest s).fault = s.fault := rfl
@[simp] theorem takeInput_cause : (takeInput rest s).cause = s.cause := rfl
@[simp] theorem takeInput_rsp : (takeInput rest s).rsp = s.rsp := rfl
@[simp] theorem takeInput_inputs : (takeInput rest s).inputs = rest := rfl
@[simp] theorem takeInput_received : (takeInput rest s).received = s.received := rfl
end takeInput

section quiet
variable (s : State)
@[simp] theorem quiet_lanes : (quiet s).lanes = s.lanes := rfl
@[simp] theorem quiet_cursor : (quiet s).cursor = s.cursor := rfl
@[simp] theorem quiet_variant : (quiet s).variant = s.variant := rfl
@[simp] theorem quiet_phase : (quiet s).phase = s.phase := rfl
@[simp] theorem quiet_fault : (quiet s).fault = s.fault := rfl
@[simp] theorem quiet_cause : (quiet s).cause = s.cause := rfl
@[simp] theorem quiet_rsp : (quiet s).rsp = none := rfl
@[simp] theorem quiet_inputs : (quiet s).inputs = s.inputs := rfl
@[simp] theorem quiet_received : (quiet s).received = s.received := rfl
end quiet

section respond
variable (b : Byte) (s : State)
@[simp] theorem respond_lanes : (respond b s).lanes = s.lanes := rfl
@[simp] theorem respond_cursor : (respond b s).cursor = s.cursor := rfl
@[simp] theorem respond_variant : (respond b s).variant = s.variant := rfl
@[simp] theorem respond_phase : (respond b s).phase = s.phase := rfl
@[simp] theorem respond_fault : (respond b s).fault = s.fault := rfl
@[simp] theorem respond_cause : (respond b s).cause = s.cause := rfl
@[simp] theorem respond_rsp : (respond b s).rsp = some b := rfl
@[simp] theorem respond_inputs : (respond b s).inputs = s.inputs := rfl
@[simp] theorem respond_received : (respond b s).received = s.received ++ [b] := rfl
end respond

section construct
variable (v : Variant) (s : State)
@[simp] theorem construct_lanes : (construct v s).lanes = Lanes.zero := rfl
@[simp] theorem construct_cursor : (construct v s).cursor = 0 := rfl
@[simp] theorem construct_variant : (construct v s).variant = v := rfl
@[simp] theorem construct_phase : (construct v s).phase = .absorb := rfl
@[simp] theorem construct_fault : (construct v s).fault = s.fault := rfl
@[simp] theorem construct_cause : (construct v s).cause = s.cause := rfl
@[simp] theorem construct_rsp : (construct v s).rsp = s.rsp := rfl
@[simp] theorem construct_inputs : (construct v s).inputs = s.inputs := rfl
@[simp] theorem construct_received : (construct v s).received = s.received := rfl
end construct

section putBlock
variable (a : Lanes) (c : BitVec 8) (s : State)
@[simp] theorem putBlock_lanes : (putBlock a c s).lanes = a := rfl
@[simp] theorem putBlock_cursor : (putBlock a c s).cursor = c := rfl
@[simp] theorem putBlock_variant : (putBlock a c s).variant = s.variant := rfl
@[simp] theorem putBlock_phase : (putBlock a c s).phase = s.phase := rfl
@[simp] theorem putBlock_fault : (putBlock a c s).fault = s.fault := rfl
@[simp] theorem putBlock_cause : (putBlock a c s).cause = s.cause := rfl
@[simp] theorem putBlock_rsp : (putBlock a c s).rsp = s.rsp := rfl
@[simp] theorem putBlock_inputs : (putBlock a c s).inputs = s.inputs := rfl
@[simp] theorem putBlock_received : (putBlock a c s).received = s.received := rfl
end putBlock

section setPhase
variable (p : Phase) (s : State)
@[simp] theorem setPhase_lanes : (setPhase p s).lanes = s.lanes := rfl
@[simp] theorem setPhase_cursor : (setPhase p s).cursor = s.cursor := rfl
@[simp] theorem setPhase_variant : (setPhase p s).variant = s.variant := rfl
@[simp] theorem setPhase_phase : (setPhase p s).phase = p := rfl
@[simp] theorem setPhase_fault : (setPhase p s).fault = s.fault := rfl
@[simp] theorem setPhase_cause : (setPhase p s).cause = s.cause := rfl
@[simp] theorem setPhase_rsp : (setPhase p s).rsp = s.rsp := rfl
@[simp] theorem setPhase_inputs : (setPhase p s).inputs = s.inputs := rfl
@[simp] theorem setPhase_received : (setPhase p s).received = s.received := rfl
end setPhase

section advanceCursor
variable (s : State)
@[simp] theorem advanceCursor_lanes : (advanceCursor s).lanes = s.lanes := rfl
@[simp] theorem advanceCursor_cursor : (advanceCursor s).cursor = s.cursor + 1 := rfl
@[simp] theorem advanceCursor_variant : (advanceCursor s).variant = s.variant := rfl
@[simp] theorem advanceCursor_phase : (advanceCursor s).phase = s.phase := rfl
@[simp] theorem advanceCursor_fault : (advanceCursor s).fault = s.fault := rfl
@[simp] theorem advanceCursor_cause : (advanceCursor s).cause = s.cause := rfl
@[simp] theorem advanceCursor_rsp : (advanceCursor s).rsp = s.rsp := rfl
@[simp] theorem advanceCursor_inputs : (advanceCursor s).inputs = s.inputs := rfl
@[simp] theorem advanceCursor_received : (advanceCursor s).received = s.received := rfl
end advanceCursor

section enterFault
variable (c : Cause) (s : State)
@[simp] theorem enterFault_lanes : (enterFault c s).lanes = s.lanes := rfl
@[simp] theorem enterFault_cursor : (enterFault c s).cursor = s.cursor := rfl
@[simp] theorem enterFault_variant : (enterFault c s).variant = s.variant := rfl
@[simp] theorem enterFault_phase : (enterFault c s).phase = s.phase := rfl
@[simp] theorem enterFault_fault : (enterFault c s).fault = true := rfl
@[simp] theorem enterFault_cause : (enterFault c s).cause = c := rfl
@[simp] theorem enterFault_rsp : (enterFault c s).rsp = none := rfl
@[simp] theorem enterFault_inputs : (enterFault c s).inputs = s.inputs := rfl
@[simp] theorem enterFault_received : (enterFault c s).received = s.received := rfl
end enterFault

section resetEngine
variable (s : State)
@[simp] theorem resetEngine_lanes : (resetEngine s).lanes = Lanes.zero := rfl
@[simp] theorem resetEngine_cursor : (resetEngine s).cursor = 0 := rfl
@[simp] theorem resetEngine_variant : (resetEngine s).variant = .sha3_224 := rfl
@[simp] theorem resetEngine_phase : (resetEngine s).phase = .idle := rfl
@[simp] theorem resetEngine_fault : (resetEngine s).fault = false := rfl
@[simp] theorem resetEngine_cause : (resetEngine s).cause = .noFault := rfl
@[simp] theorem resetEngine_rsp : (resetEngine s).rsp = none := rfl
@[simp] theorem resetEngine_inputs : (resetEngine s).inputs = s.inputs := rfl
@[simp] theorem resetEngine_received : (resetEngine s).received = s.received := rfl
end resetEngine

end Sys2Proof.Machine
end

