-- ==== Sys2Proof/Laws/Word.lean ====
section
/-! SUPPORT. The container of five values and the 5×5 matrix: reading what was written. -/

namespace Sys2Proof

@[simp] theorem Five.get_ofFn {α : Type} (g : Fin 5 → α) (i : Fin 5) : (Five.ofFn g).get i = g i := by
  fin_cases i <;> rfl

@[simp] theorem Five.get_set_self {α : Type} (f : Five α) (i : Fin 5) (v : α) : (f.set i v).get i = v := by
  fin_cases i <;> rfl

theorem Five.get_set_ne {α : Type} (f : Five α) {i j : Fin 5} (v : α) (h : j ≠ i) : (f.set i v).get j = f.get j := by
  revert h; fin_cases i <;> fin_cases j <;> first | (intro _; rfl) | (intro h; exact absurd rfl h)

theorem Five.ext_get {α : Type} {f g : Five α} (h : ∀ i, f.get i = g.get i) : f = g := by
  cases f; cases g
  simpa [Five.get] using And.intro (h 0) ⟨h 1, h 2, h 3, h 4⟩

@[simp] theorem Lanes.at_of (f : Fin 5 → Fin 5 → Lane) (x y : Fin 5) : (Lanes.of f).at x y = f x y := by
  simp [Lanes.at, Lanes.of]

@[simp] theorem Lanes.at_zero (x y : Fin 5) : Lanes.zero.at x y = 0 := by simp [Lanes.zero]

@[simp] theorem Lanes.at_put_self (a : Lanes) (x y : Fin 5) (v : Lane) : (a.put x y v).at x y = v := by
  simp [Lanes.at, Lanes.put]

theorem Lanes.at_put_ne (a : Lanes) {x y x' y' : Fin 5} (v : Lane) (h : x' ≠ x ∨ y' ≠ y) :
    (a.put x y v).at x' y' = a.at x' y' := by
  by_cases hx : x' = x
  · subst hx
    simp [Lanes.at, Lanes.put, Five.get_set_ne _ v (h.resolve_left (fun h => h rfl))]
  · simp [Lanes.at, Lanes.put, Five.get_set_ne _ _ hx]

/-- Two matrices with the same 25 lanes are equal. -/
theorem Lanes.ext_at {a b : Lanes} (h : ∀ x y, a.at x y = b.at x y) : a = b :=
  Five.ext_get fun x => Five.ext_get fun y => h x y

end Sys2Proof
end

