-- ==== Sys2Proof/Laws/Bytes.lean ====
section
/-! SUPPORT. The byte view: reading a byte after a write to it or to another one, and the canonical listing. -/

namespace Sys2Proof.Machine

/-- Byte `k` lies in flat lane `5*y + x`, at place `k mod 8`. -/
theorem addr_eq (k : Addr) : k.val = 8 * (5 * (laneY k).val + (laneX k).val) + k.val % 8 := by
  have := k.isLt
  simp only [laneX, laneY, Fin.ofNat]
  omega

theorem laneShift_le (k : Addr) : laneShift k ≤ 56 := by simp only [laneShift]; omega

/-- Two bytes in one lane at one place are one byte. -/
theorem addr_ext {j k : Addr} (hx : laneX j = laneX k) (hy : laneY j = laneY k) (hs : laneShift j = laneShift k) :
    j = k := by
  have hj := addr_eq j
  have hk := addr_eq k
  simp only [laneShift] at hs
  rw [hx, hy] at hj
  exact Fin.ext (by omega)

/-- A bit of the lane value that `writeByte` stores. -/
theorem spliced_bit (l : Lane) (v : Byte) (n i : Nat) (hi : i < 64) :
    ((l &&& ~~~((0xFF : Lane) <<< n)) ||| (v.setWidth 64 <<< n)).getLsbD i =
      if n ≤ i ∧ i < n + 8 then v.getLsbD (i - n) else l.getLsbD i := by
  have hff : (0xFF : Lane).getLsbD (i - n) = decide (i - n < 8) := by
    have h : ∀ j < 64, (0xFF : Lane).getLsbD j = decide (j < 8) := by decide
    exact h _ (by omega)
  simp only [BitVec.getLsbD_or, BitVec.getLsbD_and, BitVec.getLsbD_not, BitVec.getLsbD_shiftLeft, hff,
    BitVec.getLsbD_setWidth, hi, decide_true, Bool.true_and]
  by_cases h1 : i < n
  · have : ¬ (n ≤ i) := by omega
    simp [h1, this]
  · have h2 : n ≤ i := by omega
    have h3 : i - n < 64 := by omega
    by_cases h4 : i < n + 8
    · have : i - n < 8 := by omega
      simp [h1, h2, h3, h4, this]
    · have h5 : ¬ (i - n < 8) := by omega
      have h6 : v.getLsbD (i - n) = false := BitVec.getLsbD_of_ge v _ (by omega)
      simp [h1, h4, h5, h6]

/-- A byte reads as what was last written to it. -/
@[simp] theorem readByte_writeByte_self (a : Lanes) (k : Addr) (v : Byte) : readByte (writeByte a k v) k = v := by
  have hk := laneShift_le k
  refine BitVec.eq_of_getLsbD_eq fun i hi => ?_
  have h1 : laneShift k ≤ laneShift k + i ∧ laneShift k + i < laneShift k + 8 := by omega
  have h2 : laneShift k + i - laneShift k = i := by omega
  rw [readByte, writeByte, Lanes.at_put_self, BitVec.getLsbD_extractLsb', spliced_bit _ _ _ _ (by omega), if_pos h1, h2]
  simp [hi]

/-- A write leaves every other byte alone. -/
theorem readByte_writeByte_ne (a : Lanes) {j k : Addr} (v : Byte) (h : j ≠ k) :
    readByte (writeByte a k v) j = readByte a j := by
  by_cases hl : laneX j = laneX k ∧ laneY j = laneY k
  · obtain ⟨hx, hy⟩ := hl
    have hs : laneShift j ≠ laneShift k := fun hs => h (addr_ext hx hy hs)
    have hj := laneShift_le j
    refine BitVec.eq_of_getLsbD_eq fun i hi => ?_
    have h1 : ¬ (laneShift k ≤ laneShift j + i ∧ laneShift j + i < laneShift k + 8) := by
      simp only [laneShift] at hs ⊢; omega
    rw [readByte, writeByte, hx, hy, Lanes.at_put_self, BitVec.getLsbD_extractLsb', spliced_bit _ _ _ _ (by omega),
      if_neg h1, readByte, BitVec.getLsbD_extractLsb', hx, hy]
  · rw [readByte, writeByte, Lanes.at_put_ne _ _ (by tauto), readByte]

@[simp] theorem readByte_xorByte_self (a : Lanes) (k : Addr) (v : Byte) :
    readByte (xorByte a k v) k = readByte a k ^^^ v := by simp [xorByte]

theorem readByte_xorByte_ne (a : Lanes) {j k : Addr} (v : Byte) (h : j ≠ k) :
    readByte (xorByte a k v) j = readByte a j := readByte_writeByte_ne a _ h

/-- The address of a place in a lane. -/
def byteAddr (x y : Fin 5) (n : Fin 8) : Addr := ⟨8 * (5 * y.val + x.val) + n.val, by omega⟩

theorem laneX_byteAddr (x y : Fin 5) (n : Fin 8) : laneX (byteAddr x y n) = x := by
  apply Fin.ext; simp only [laneX, byteAddr, Fin.ofNat]; omega

theorem laneY_byteAddr (x y : Fin 5) (n : Fin 8) : laneY (byteAddr x y n) = y := by
  apply Fin.ext; simp only [laneY, byteAddr, Fin.ofNat]; omega

theorem laneShift_byteAddr (x y : Fin 5) (n : Fin 8) : laneShift (byteAddr x y n) = 8 * n.val := by
  simp only [laneShift, byteAddr]; omega

/-- Two matrices with the same 200 bytes are equal: the byte view and the lanes are one store. -/
theorem lanes_ext_bytes {a b : Lanes} (h : ∀ k, readByte a k = readByte b k) : a = b := by
  refine Lanes.ext_at fun x y => BitVec.eq_of_getLsbD_eq fun i hi => ?_
  have hk := congrArg (fun v => BitVec.getLsbD v (i % 8)) (h (byteAddr x y ⟨i / 8, by omega⟩))
  simp only [readByte, laneX_byteAddr, laneY_byteAddr, laneShift_byteAddr, BitVec.getLsbD_extractLsb'] at hk
  have hi8 : i % 8 < 8 := by omega
  have hdiv : 8 * (i / 8) + i % 8 = i := by omega
  simpa [hi8, hdiv] using hk

@[simp] theorem readByte_zero (k : Addr) : readByte Lanes.zero k = 0 := by simp [readByte]

/-- XORing into a byte, as one equation for every byte. -/
theorem readByte_xorByte (a : Lanes) (j k : Addr) (v : Byte) :
    readByte (xorByte a k v) j = readByte a j ^^^ (if j = k then v else 0) := by
  by_cases h : j = k
  · subst h; simp
  · simp [readByte_xorByte_ne _ _ h, h]

theorem xorByte_xorByte_self (a : Lanes) (k : Addr) (u v : Byte) :
    xorByte (xorByte a k u) k v = xorByte a k (u ^^^ v) := by
  refine lanes_ext_bytes fun j => ?_
  simp only [readByte_xorByte, BitVec.xor_assoc]
  split <;> simp

theorem xorByte_comm (a : Lanes) (j k : Addr) (u v : Byte) :
    xorByte (xorByte a k u) j v = xorByte (xorByte a j v) k u := by
  refine lanes_ext_bytes fun i => ?_
  simp only [readByte_xorByte, BitVec.xor_assoc]
  rw [BitVec.xor_comm (if i = k then u else 0)]

@[simp] theorem xorByte_zero (a : Lanes) (k : Addr) : xorByte a k 0 = a := by
  refine lanes_ext_bytes fun j => ?_
  simp [readByte_xorByte]

/-- The listing of the state byte space is canonical, whatever the lanes hold, so every operation keeps it so. -/
theorem memoryCells_wf (a : Lanes) : Memory.wf (memoryCells a) = true := by
  have hsorted : (memoryCells a).Pairwise fun c d => c.1 < d.1 := by
    refine List.Pairwise.filterMap _ ?_ (List.pairwise_lt_finRange 200)
    intro i j hij c hc d hd
    simp only [Option.ite_none_left_eq_some, Option.some.injEq] at hc hd
    rw [← hc.2, ← hd.2]
    exact hij
  have hcells : ∀ c ∈ memoryCells a, c.1 < 200 ∧ c.2 ≠ 0 := by
    intro c hc
    obtain ⟨k, -, hk⟩ := List.mem_filterMap.1 hc
    simp only [Option.ite_none_left_eq_some, Option.some.injEq] at hk
    obtain ⟨h0, rfl⟩ := hk
    exact ⟨k.isLt, h0⟩
  simp only [Memory.wf, Bool.and_eq_true, decide_eq_true_eq, List.all_eq_true, bne_iff_ne]
  exact ⟨hsorted, hcells⟩

/-- The address `cursor` is given exactly when it is below the bound and inside the state byte space. -/
theorem cursorAddr_eq_some {s : State} {n : Nat} {k : Addr} :
    cursorAddr s n = some k ↔ k.val = s.cursor.toNat ∧ s.cursor.toNat < n := by
  simp only [cursorAddr]
  split
  · rename_i h
    simp only [Option.some.injEq, Fin.ext_iff]
    exact ⟨fun e => ⟨e.symm, h.1⟩, fun e => e.1.symm⟩
  · rename_i h
    simp only [reduceCtorEq, false_iff, not_and]
    intro e hlt
    exact h ⟨hlt, e ▸ k.isLt⟩

theorem cursorAddr_of_lt {s : State} {n : Nat} (h : s.cursor.toNat < n) (hn : n ≤ 200) :
    cursorAddr s n = some ⟨s.cursor.toNat, by omega⟩ := cursorAddr_eq_some.2 ⟨rfl, h⟩

theorem cursorAddr_eq_none {s : State} {n : Nat} (h : n ≤ s.cursor.toNat) : cursorAddr s n = none := by
  simp only [cursorAddr, dite_eq_right_iff, reduceCtorEq]
  omega

/-- Every rate is at most 144, every output length is below its rate, and the separator is 0x06 (rules R170, R173). -/
theorem lut_bounds (v : Variant) :
    72 ≤ (lut v).rateBytes ∧ (lut v).rateBytes ≤ 144 ∧ (lut v).outputBytes < (lut v).rateBytes := by
  cases v <;> decide

@[simp] theorem lut_sep (v : Variant) : (lut v).domainSeparator = 0x06 := by cases v <;> rfl

@[simp] theorem padAddr_val (v : Variant) : (padAddr v).val = (lut v).rateBytes - 1 := by cases v <;> rfl

end Sys2Proof.Machine
end

