-- ==== Sys2Proof/Laws/Commands.lean ====
section
/-! SUPPORT. What each shared operation, each command and each step can do, said once. -/

namespace Sys2Proof.Machine

theorem prologue_of_fault {s : State} (h : s.fault = true) (f : State → Result) : prologue s f = .next (quiet s) := by
  simp [prologue, h]

theorem prologue_of_no_fault {s : State} (h : s.fault = false) (f : State → Result) : prologue s f = f (quiet s) := by
  simp [prologue, h]

theorem requirePhase_of_eq {p : Phase} {s : State} (h : s.phase = p) (f : State → Result) :
    requirePhase p s f = f s := by simp [requirePhase, h]

theorem requirePhase_of_ne {p : Phase} {s : State} (h : s.phase ≠ p) (f : State → Result) :
    requirePhase p s f = .next (enterFault .phaseViolation s) := by simp [requirePhase, h, raise]

/-- The address `cursor` does not depend on the response port. -/
@[simp] theorem cursorAddr_quiet (s : State) (n : Nat) : cursorAddr (quiet s) n = cursorAddr s n := rfl

@[simp] theorem lutRead_quiet (s : State) : lutRead (quiet s) = lut s.variant := rfl

/-- A second fault entry or a quiet state before one makes no difference to it. -/
@[simp] theorem enterFault_quiet (c : Cause) (s : State) : enterFault c (quiet s) = enterFault c s := rfl

@[simp] theorem exec_init (v : Variant) (s : State) : exec (.init v) s = execInit v s := rfl
@[simp] theorem exec_absorb (b : Byte) (s : State) : exec (.absorb b) s = execAbsorb b s := rfl
@[simp] theorem exec_finalize (s : State) : exec .finalize s = execFinalize s := rfl
@[simp] theorem exec_squeeze (s : State) : exec .squeeze s = execSqueeze s := rfl

/-- In the fault state every command is discarded (rule R187). -/
theorem exec_of_fault {s : State} (h : s.fault = true) (i : Instr) : exec i s = .next (quiet s) := by
  cases i <;> simp [execInit, execAbsorb, execFinalize, execSqueeze, prologue_of_fault h]

theorem execInit_eq {s : State} (h : s.fault = false) (v : Variant) :
    execInit v s = .next (construct v (quiet s)) := prologue_of_no_fault h _

theorem execAbsorb_wrong_phase {s : State} (h : s.fault = false) (hp : s.phase ≠ .absorb) (b : Byte) :
    execAbsorb b s = .next (enterFault .phaseViolation s) := by
  rw [execAbsorb, prologue_of_no_fault h, requirePhase_of_ne (by simpa using hp), enterFault_quiet]

theorem execAbsorb_full {s : State} {k : Addr} (h : s.fault = false) (hp : s.phase = .absorb)
    (hk : cursorAddr s (lut s.variant).rateBytes = some k)
    (hc : s.cursor.toNat + 1 = (lut s.variant).rateBytes) (b : Byte) :
    execAbsorb b s = .next (putBlock (permute (xorByte s.lanes k b)) 0 (quiet s)) := by
  rw [execAbsorb, prologue_of_no_fault h, requirePhase_of_eq (by simpa using hp)]
  simp [hk, hc]

theorem execAbsorb_partial {s : State} {k : Addr} (h : s.fault = false) (hp : s.phase = .absorb)
    (hk : cursorAddr s (lut s.variant).rateBytes = some k)
    (hc : s.cursor.toNat + 1 ≠ (lut s.variant).rateBytes) (b : Byte) :
    execAbsorb b s = .next (putBlock (xorByte s.lanes k b) (s.cursor + 1) (quiet s)) := by
  rw [execAbsorb, prologue_of_no_fault h, requirePhase_of_eq (by simpa using hp)]
  simp [hk, hc]

theorem execAbsorb_out_of_range {s : State} (h : s.fault = false) (hp : s.phase = .absorb)
    (hk : cursorAddr s (lut s.variant).rateBytes = none) (b : Byte) :
    execAbsorb b s = .refused .cursorOutOfRange := by
  rw [execAbsorb, prologue_of_no_fault h, requirePhase_of_eq (by simpa using hp)]
  simp [hk]

theorem execFinalize_wrong_phase {s : State} (h : s.fault = false) (hp : s.phase ≠ .absorb) :
    execFinalize s = .next (enterFault .phaseViolation s) := by
  rw [execFinalize, prologue_of_no_fault h, requirePhase_of_ne (by simpa using hp), enterFault_quiet]

theorem execFinalize_eq {s : State} {k : Addr} (h : s.fault = false) (hp : s.phase = .absorb)
    (hk : cursorAddr s (lut s.variant).rateBytes = some k) :
    execFinalize s =
      .next (setPhase .squeeze (putBlock (permute (padState s.variant k s.lanes)) 0 (quiet s))) := by
  rw [execFinalize, prologue_of_no_fault h, requirePhase_of_eq (by simpa using hp)]
  simp [hk]

theorem execFinalize_out_of_range {s : State} (h : s.fault = false) (hp : s.phase = .absorb)
    (hk : cursorAddr s (lut s.variant).rateBytes = none) : execFinalize s = .refused .cursorOutOfRange := by
  rw [execFinalize, prologue_of_no_fault h, requirePhase_of_eq (by simpa using hp)]
  simp [hk]

theorem execSqueeze_wrong_phase {s : State} (h : s.fault = false) (hp : s.phase ≠ .squeeze) :
    execSqueeze s = .next (enterFault .phaseViolation s) := by
  rw [execSqueeze, prologue_of_no_fault h, requirePhase_of_ne (by simpa using hp), enterFault_quiet]

theorem execSqueeze_overrun {s : State} (h : s.fault = false) (hp : s.phase = .squeeze)
    (hc : s.cursor.toNat = (lut s.variant).outputBytes) :
    execSqueeze s = .next (enterFault .squeezeOverrun s) := by
  rw [execSqueeze, prologue_of_no_fault h, requirePhase_of_eq (by simpa using hp)]
  simp [hc, raise]

theorem execSqueeze_eq {s : State} {k : Addr} (h : s.fault = false) (hp : s.phase = .squeeze)
    (hk : cursorAddr s (lut s.variant).outputBytes = some k) :
    execSqueeze s = .next (advanceCursor (respond (readByte s.lanes k) (quiet s))) := by
  have hc : s.cursor.toNat ≠ (lut s.variant).outputBytes := by
    have := (cursorAddr_eq_some.1 hk).2; omega
  rw [execSqueeze, prologue_of_no_fault h, requirePhase_of_eq (by simpa using hp)]
  simp [hk, hc]

theorem execSqueeze_out_of_range {s : State} (h : s.fault = false) (hp : s.phase = .squeeze)
    (hc : s.cursor.toNat ≠ (lut s.variant).outputBytes)
    (hk : cursorAddr s (lut s.variant).outputBytes = none) : execSqueeze s = .refused .cursorOutOfRange := by
  rw [execSqueeze, prologue_of_no_fault h, requirePhase_of_eq (by simpa using hp)]
  simp [hk, hc]

/-- Everything a command can do when it answers a next state. -/
inductive ExecCase (s : State) : Instr → State → Prop where
  | discarded {i : Instr} (h : s.fault = true) : ExecCase s i (quiet s)
  | constructed {v : Variant} (h : s.fault = false) : ExecCase s (.init v) (construct v (quiet s))
  | violated {i : Instr} (h : s.fault = false)
      (hi : (s.phase ≠ .absorb ∧ ((∃ b, i = .absorb b) ∨ i = .finalize)) ∨ (s.phase ≠ .squeeze ∧ i = .squeeze)) :
      ExecCase s i (enterFault .phaseViolation s)
  | filled {b : Byte} {k : Addr} (h : s.fault = false) (hp : s.phase = .absorb)
      (hk : cursorAddr s (lut s.variant).rateBytes = some k)
      (hc : s.cursor.toNat + 1 = (lut s.variant).rateBytes) :
      ExecCase s (.absorb b) (putBlock (permute (xorByte s.lanes k b)) 0 (quiet s))
  | absorbed {b : Byte} {k : Addr} (h : s.fault = false) (hp : s.phase = .absorb)
      (hk : cursorAddr s (lut s.variant).rateBytes = some k)
      (hc : s.cursor.toNat + 1 ≠ (lut s.variant).rateBytes) :
      ExecCase s (.absorb b) (putBlock (xorByte s.lanes k b) (s.cursor + 1) (quiet s))
  | finalized {k : Addr} (h : s.fault = false) (hp : s.phase = .absorb)
      (hk : cursorAddr s (lut s.variant).rateBytes = some k) :
      ExecCase s .finalize (setPhase .squeeze (putBlock (permute (padState s.variant k s.lanes)) 0 (quiet s)))
  | overrun (h : s.fault = false) (hp : s.phase = .squeeze)
      (hc : s.cursor.toNat = (lut s.variant).outputBytes) : ExecCase s .squeeze (enterFault .squeezeOverrun s)
  | squeezed {k : Addr} (h : s.fault = false) (hp : s.phase = .squeeze)
      (hk : cursorAddr s (lut s.variant).outputBytes = some k) :
      ExecCase s .squeeze (advanceCursor (respond (readByte s.lanes k) (quiet s)))

theorem exec_cases {i : Instr} {s t : State} (h : exec i s = .next t) : ExecCase s i t := by
  by_cases hf : s.fault = true
  · rw [exec_of_fault hf] at h
    cases h
    exact .discarded hf
  have hf : s.fault = false := by simpa using hf
  cases i with
  | init v =>
    rw [exec_init, execInit_eq hf] at h
    cases h
    exact .constructed hf
  | absorb b =>
    rw [exec_absorb] at h
    by_cases hp : s.phase = .absorb
    · cases hk : cursorAddr s (lut s.variant).rateBytes with
      | none => rw [execAbsorb_out_of_range hf hp hk] at h; cases h
      | some k =>
        by_cases hc : s.cursor.toNat + 1 = (lut s.variant).rateBytes
        · rw [execAbsorb_full hf hp hk hc] at h
          cases h
          exact .filled hf hp hk hc
        · rw [execAbsorb_partial hf hp hk hc] at h
          cases h
          exact .absorbed hf hp hk hc
    · rw [execAbsorb_wrong_phase hf hp] at h
      cases h
      exact .violated hf (.inl ⟨hp, .inl ⟨b, rfl⟩⟩)
  | finalize =>
    rw [exec_finalize] at h
    by_cases hp : s.phase = .absorb
    · cases hk : cursorAddr s (lut s.variant).rateBytes with
      | none => rw [execFinalize_out_of_range hf hp hk] at h; cases h
      | some k =>
        rw [execFinalize_eq hf hp hk] at h
        cases h
        exact .finalized hf hp hk
    · rw [execFinalize_wrong_phase hf hp] at h
      cases h
      exact .violated hf (.inl ⟨hp, .inr rfl⟩)
  | squeeze =>
    rw [exec_squeeze] at h
    by_cases hp : s.phase = .squeeze
    · by_cases hc : s.cursor.toNat = (lut s.variant).outputBytes
      · rw [execSqueeze_overrun hf hp hc] at h
        cases h
        exact .overrun hf hp hc
      · cases hk : cursorAddr s (lut s.variant).outputBytes with
        | none => rw [execSqueeze_out_of_range hf hp hc hk] at h; cases h
        | some k =>
          rw [execSqueeze_eq hf hp hk] at h
          cases h
          exact .squeezed hf hp hk
    · rw [execSqueeze_wrong_phase hf hp] at h
      cases h
      exact .violated hf (.inr ⟨hp, rfl⟩)

theorem issueWord_of_legal {w : CmdWord} {i : Instr} (h : decode w = .ok i) (s : State) :
    issueWord w s = exec i s := by simp [issueWord, h]

theorem issueWord_of_illegal {w : CmdWord} {e : IllegalWord} (h : decode w = .error e) (s : State) :
    issueWord w s = .next (if s.fault then quiet s else enterFault .illegalEncoding s) := by
  simp only [issueWord, h, prologue, raise, enterFault_quiet]
  split <;> rfl

/-- Everything a step can do when it answers a next state. -/
inductive StepCase (s : State) : State → Prop where
  | idle (h : s.inputs = []) : StepCase s (quiet s)
  | waited {rest : List HostEvent} (h : s.inputs = .wait :: rest) : StepCase s (quiet (takeInput rest s))
  | resetEvent {e : HostEvent} {rest : List HostEvent} (h : s.inputs = e :: rest)
      (he : e = .reset ∨ ∃ w, e = .resetDuring w) : StepCase s (resetEngine (takeInput rest s))
  | illegal {w : CmdWord} {e : IllegalWord} {rest : List HostEvent} (h : s.inputs = .issue w :: rest)
      (hd : decode w = .error e) :
      StepCase s (if s.fault then quiet (takeInput rest s) else enterFault .illegalEncoding (takeInput rest s))
  | command {w : CmdWord} {i : Instr} {rest : List HostEvent} {t : State} (h : s.inputs = .issue w :: rest)
      (hd : decode w = .ok i) (ht : ExecCase (takeInput rest s) i t) : StepCase s t

theorem step_cases {s t : State} (h : step s = .next t) : StepCase s t := by
  unfold step channelStep at h
  split at h
  · cases h
    exact .idle ‹_›
  · rename_i e rest hin
    cases e with
    | issue w =>
      simp only [hostEvent] at h
      cases hd : decode w with
      | ok i =>
        rw [issueWord_of_legal hd] at h
        exact .command hin hd (exec_cases h)
      | error e =>
        rw [issueWord_of_illegal hd] at h
        cases h
        exact .illegal hin hd
    | reset =>
      cases h
      exact .resetEvent hin (.inl rfl)
    | resetDuring w =>
      cases h
      exact .resetEvent hin (.inr ⟨w, rfl⟩)
    | wait =>
      cases h
      exact .waited hin

end Sys2Proof.Machine
end

