-- ==== Sys2Proof/Laws/Decode.lean ====
section
/-! SUPPORT. A command word is its three fields (rule R80), and the decoder on a word given by its fields. -/

namespace Sys2Proof

@[simp] theorem opField_assembleWord (op var : BitVec 2) (data : Byte) : opField (assembleWord op var data) = op := by
  refine BitVec.eq_of_getLsbD_eq fun i hi => ?_
  have h1 : ¬ (10 + i < 8) := by omega
  have h2 : ¬ (10 + i - 8 < 2) := by omega
  have h3 : 10 + i - 8 - 2 = i := by omega
  simp only [opField, assembleWord, BitVec.getLsbD_extractLsb', BitVec.getLsbD_append, h1, h2, h3, if_false, hi]
  simp

@[simp] theorem varField_assembleWord (op var : BitVec 2) (data : Byte) : varField (assembleWord op var data) = var := by
  refine BitVec.eq_of_getLsbD_eq fun i hi => ?_
  have h1 : ¬ (8 + i < 8) := by omega
  have h2 : 8 + i - 8 < 2 := by omega
  have h3 : 8 + i - 8 = i := by omega
  simp only [varField, assembleWord, BitVec.getLsbD_extractLsb', BitVec.getLsbD_append, h1, h3, hi, if_false]
  simp

@[simp] theorem dataField_assembleWord (op var : BitVec 2) (data : Byte) :
    dataField (assembleWord op var data) = data := by
  refine BitVec.eq_of_getLsbD_eq fun i hi => ?_
  simp only [dataField, assembleWord, BitVec.getLsbD_extractLsb', BitVec.getLsbD_append, Nat.zero_add, hi]
  simp

/-- Rule R80: the word is `{op, var, data}`. -/
theorem assembleWord_fields (w : CmdWord) : assembleWord (opField w) (varField w) (dataField w) = w := by
  refine BitVec.eq_of_getLsbD_eq fun i hi => ?_
  simp only [assembleWord, opField, varField, dataField, BitVec.getLsbD_append, BitVec.getLsbD_extractLsb']
  by_cases h1 : i < 8
  · simp [h1]
  · by_cases h2 : i - 8 < 2
    · have h3 : 8 + (i - 8) = i := by omega
      simp [h1, h2, h3]
    · have h3 : 10 + (i - 8 - 2) = i := by omega
      have h4 : i - 8 - 2 < 2 := by omega
      simp [h1, h2, h3, h4]

/-- A fact of every word, from its fields. -/
theorem forall_word {p : CmdWord → Prop} (h : ∀ op var data, p (assembleWord op var data)) (w : CmdWord) : p w :=
  assembleWord_fields w ▸ h _ _ _

@[simp] theorem variantOfCode_variantCode (v : Variant) : variantOfCode (variantCode v) = v := by cases v <;> rfl

@[simp] theorem variantCode_variantOfCode (c : BitVec 2) : variantCode (variantOfCode c) = c := by
  revert c; decide

theorem decode_op0 (var : BitVec 2) (data : Byte) :
    decode (assembleWord 0 var data) = if data = 0 then .ok (.init (variantOfCode var)) else .error .initData := by
  simp [decode]

theorem decode_op1 (var : BitVec 2) (data : Byte) :
    decode (assembleWord 1 var data) = if var = 0 then .ok (.absorb data) else .error .absorbVar := by
  simp [decode]

theorem decode_op2 (var : BitVec 2) (data : Byte) :
    decode (assembleWord 2 var data) = if var = 0 ∧ data = 0 then .ok .finalize else .error .finalizeReserved := by
  simp [decode]

theorem decode_op3 (var : BitVec 2) (data : Byte) :
    decode (assembleWord 3 var data) = if var = 0 ∧ data = 0 then .ok .squeeze else .error .squeezeReserved := by
  simp [decode]

end Sys2Proof
end

