-- ==== Sys2Proof/Laws/PerInstr.lean ====
section
/-! SUPPORT. Statements made per instruction. Family RowSelects: a command's word selects its own row of the opcode
table and no other (rule R84). -/

namespace Sys2Proof.Laws.RowSelects

/-- Of the four rows, the word of `i` selects exactly the row of `i`. -/
def Statement (i : Instr) : Prop := opcodeRows.filter (fun r => r.selects (encode i)) = [i.row]

theorem init (v : Variant) : Statement (.init v) := by unfold Statement; cases v <;> decide

theorem absorb (b : Byte) : Statement (.absorb b) := by
  revert b
  show ∀ b : BitVec 8, opcodeRows.filter (fun r => r.selects (encode (.absorb b))) = [(Instr.absorb b).row]
  decide +kernel

theorem finalize : Statement .finalize := by unfold Statement; decide

theorem squeeze : Statement .squeeze := by unfold Statement; decide

end Sys2Proof.Laws.RowSelects
end

