-- ==== Sys2Proof/Laws/Programs.lean ====
section
/-! SUPPORT. Sequences of commands and of bytes: what running or XORing an appended sequence does. -/

namespace Sys2Proof.Machine

@[simp] theorem execAll_nil (s : State) : execAll [] s = .next s := rfl

theorem execAll_cons_of_next {i : Instr} {s t : State} (h : exec i s = .next t) (p : List Instr) :
    execAll (i :: p) s = execAll p t := by simp only [execAll, h]

/-- Running an appended program is running it from where the first part ends. -/
theorem execAll_append_of_next {p : List Instr} {s t : State} (h : execAll p s = .next t) (q : List Instr) :
    execAll (p ++ q) s = execAll q t := by
  induction p generalizing s with
  | nil => cases h; rfl
  | cons i p ih =>
    cases hx : exec i s with
    | next u =>
      rw [execAll_cons_of_next hx] at h
      rw [List.cons_append, execAll_cons_of_next hx, ih h]
    | fault r => simp [execAll, hx] at h
    | refused r => simp [execAll, hx] at h

theorem xorBytes_append (a : Lanes) (k : Nat) (bs cs : List Byte) :
    xorBytes a k (bs ++ cs) = xorBytes (xorBytes a k bs) (k + bs.length) cs := by
  induction bs generalizing a k with
  | nil => rfl
  | cons b bs ih =>
    simp only [List.cons_append, xorBytes, ih, List.length_cons]
    congr 1
    omega

/-- A byte after a run of bytes is XORed in at the offsets `k, k+1, ...`. -/
theorem readByte_xorBytes (bs : List Byte) (a : Lanes) (k : Nat) (h : k + bs.length ≤ 200) (j : Addr) :
    readByte (xorBytes a k bs) j =
      readByte a j ^^^ (if k ≤ j.val ∧ j.val < k + bs.length then bs.getD (j.val - k) 0 else 0) := by
  induction bs generalizing a k with
  | nil => simp [xorBytes]
  | cons b bs ih =>
    simp only [List.length_cons] at h
    have hv : (Fin.ofNat 200 k).val = k := by simp only [Fin.ofNat]; omega
    rw [xorBytes, ih _ _ (by omega), readByte_xorByte, BitVec.xor_assoc]
    congr 1
    by_cases hj : j.val = k
    · have hjk : j = Fin.ofNat 200 k := Fin.ext (by rw [hv, hj])
      have h0 : j.val - k = 0 := by omega
      rw [if_pos hjk, if_neg (by omega), List.length_cons, if_pos (by omega), h0]
      simp
    · have hjk : j ≠ Fin.ofNat 200 k := fun e => hj (by rw [e, hv])
      by_cases h2 : k ≤ j.val ∧ j.val < k + (bs.length + 1)
      · have h3 : k + 1 ≤ j.val ∧ j.val < k + 1 + bs.length := by omega
        obtain ⟨d, hd⟩ : ∃ d, j.val - k = d + 1 := ⟨j.val - k - 1, by omega⟩
        have hd' : j.val - (k + 1) = d := by omega
        simp only [hjk, List.length_cons, h2, h3, and_self, if_true, if_false, hd, hd', List.getD_cons_succ]
        simp
      · have h3 : ¬ (k + 1 ≤ j.val ∧ j.val < k + 1 + bs.length) := by omega
        simp only [hjk, List.length_cons, h2, h3, if_false]
        simp

theorem firstBytes_succ (a : Lanes) (n : Nat) :
    firstBytes a (n + 1) = firstBytes a n ++ [readByte a (Fin.ofNat 200 n)] := by
  simp [firstBytes, List.range_succ]

end Sys2Proof.Machine
end

