-- ==== Sys2Proof/Tests/Slice0.lean ====
section
/-! SUPPORT. Tests: values of the spec's own vectors (95_test_vectors.md, named V-...) and worked examples, and for
every statement with hypotheses a witness that meets them. -/

namespace Sys2Proof.Tests

open Sys2Proof Sys2Proof.Machine

/-- A small state: lanes zero, a host with nothing to issue. -/
def engine (p : Phase) (v : Variant) (c : BitVec 8) : State := { State.reset with phase := p, variant := v, cursor := c }

/-- The same with a fault. -/
def faulted (p : Phase) (c : Cause) : State := { engine p .sha3_256 0 with fault := true, cause := c }

/-- What `f` reads in the next state, none where there is none. -/
def seen {α : Type} (r : Result) (f : State → α) : Option α :=
  match r with
  | .next s => some (f s)
  | .fault _ => none
  | .refused _ => none

/-! ### Well-formedness refuses an ill-formed term for each check -/

theorem test_instr_wf : (Instr.init .sha3_512).wf ∧ (Instr.absorb 0xFF).wf ∧ Instr.finalize.wf ∧ Instr.squeeze.wf := by decide
theorem test_asmVariant_wf : (AsmVariant.code 3).wf = true ∧ (AsmVariant.code 4).wf = false := by decide
theorem test_asmByte_wf_number : (AsmByte.number 255).wf = true ∧ (AsmByte.number 256).wf = false := by decide
theorem test_asmByte_wf_char : (AsmByte.char 'a').wf = true ∧ (AsmByte.char 'é').wf = false := by decide
theorem test_asmLine_wf_init : (AsmLine.init (.code 4)).wf = false := by decide
theorem test_asmLine_wf_absorb : (AsmLine.absorb (.number 256)).wf = false := by decide
theorem test_asmLine_wf_bytes : (AsmLine.absorbBytes [.number 1, .number 300]).wf = false := by decide
theorem test_asmLine_wf_hash : (AsmLine.hash (.code 9) []).wf = false ∧ (AsmLine.hash (.code 0) [.number 256]).wf = false := by decide
theorem test_lutRow_widths : (LutRow.mk 144 130 0x06).outputBytes = 2 ∧ (LutRow.mk 328 28 0x06).rateBytes = 72 := by decide
theorem test_lutRow_wf_output : (LutRow.mk 72 72 0x06).wf = false := by decide
theorem test_lutRow_wf_rate : (LutRow.mk 76 64 0x06).wf = false ∧ (LutRow.mk 64 32 0x06).wf = false ∧ (LutRow.mk 152 32 0x06).wf = false := by decide
theorem test_lutRow_wf_separator : (LutRow.mk 72 64 0x86).wf = false := by decide
theorem test_memory_wf : Memory.wf [(1, 5), (0, 5)] = false ∧ Memory.wf [(0, 0)] = false ∧ Memory.wf [(200, 1)] = false ∧
    Memory.wf (memoryCells State.reset.lanes) = true := by decide +kernel

/-! ### Decoding: words written out bit by bit from rule R84 (vectors V-ENC) -/

theorem test_decode_init : decode 0b001000000000#12 = .ok (.init .sha3_384) := by rfl
theorem test_decode_absorb : decode 0b010001100001#12 = .ok (.absorb 0x61) := by rfl
theorem test_decode_finalize : decode 0b100000000000#12 = .ok .finalize := by rfl
theorem test_decode_squeeze : decode 0b110000000000#12 = .ok .squeeze := by rfl
theorem test_decode_reserved_init : decode 0b001110000000#12 = .error .initData := by rfl
theorem test_decode_reserved_absorb : decode 0b011001100001#12 = .error .absorbVar := by rfl
theorem test_decode_reserved_finalize : decode 0b100100000000#12 = .error .finalizeReserved := by rfl
theorem test_decode_reserved_squeeze : decode 0b110000000001#12 = .error .squeezeReserved := by rfl
theorem test_encode : [Instr.init .sha3_512, .absorb 0xFF, .finalize, .squeeze].map encode = [0x300, 0x4FF, 0x800, 0xC00] := by decide
theorem test_decodeTableWord : decodeTableWord 16 0x461 = some (.absorb 0x61) ∧ decodeTableWord 16 0xD00 = none := by decide

/-! ### Tables and permutation (vectors V-LUT, V-THETA, V-RHOPI, V-CHI, V-IOTA, V-ROUND, V-PERM) -/

theorem test_rol64 : rol64 0x0123456789ABCDEF 36 = 0x9ABCDEF012345678 ∧ rol64 0x8000000000000001 1 = 3 ∧
    rol64 0x0123456789ABCDEF 62 = 0xC048D159E26AF37B := by decide

/-- V-THETA-2: the wraps of the rotation and of the column index. -/
theorem test_theta : (theta (Lanes.zero.put 2 3 0x8000000000000000)).at 1 4 = 1 ∧
    (theta (Lanes.zero.put 2 3 0x8000000000000000)).at 3 0 = 0x8000000000000000 ∧
    (theta (Lanes.zero.put 2 3 0x8000000000000000)).at 2 3 = 0x8000000000000000 ∧
    (theta (Lanes.zero.put 2 3 0x8000000000000000)).at 2 0 = 0 := by decide

/-- V-RHOPI-2: every input lane carries its own flat index. -/
theorem test_rhopi : let b := rhopi (Lanes.of fun x y => 0xA0 + BitVec.ofNat 64 (5 * y.val + x.val))
    b.at 0 1 = 0x0000000A30000000 ∧ b.at 0 2 = 0x142 ∧ b.at 3 4 = 0x00015E0000000000 ∧ b.at 4 1 = 0xC000000000000016 := by
  decide

/-- V-CHI-1, row 0. -/
theorem test_chi : let b := Lanes.of fun x _ => ([0x00000000FFFFFFFF, 0x0F0F0F0F0F0F0F0F, 0x3333333333333333, 0x5555555555555555, 0xFFFFFFFF00000000] : List Lane).getD x.val 0
    (chi b).at 0 0 = 0x30303030CFCFCFCF ∧ (chi b).at 3 0 = 0x55555555AAAAAAAA ∧ (chi b).at 4 0 = 0xF0F0F0F000000000 := by
  decide

/-- Rule R113: the last constant of the first printed column, the first of the second, one of the third. -/
theorem test_rc : rc 7 = 0x8000000000008009 ∧ rc 8 = 0x000000000000008A ∧ rc 19 = 0x800000008000000A := by decide

/-- V-IOTA-6. -/
theorem test_iota : (iota 12 (Lanes.zero.put 0 0 0x123456789ABCDEF0)).at 0 0 = 0x123456781ABC5E7B := by decide

/-- V-ROUND-2, one lane. -/
theorem test_rounds : (keccakRound 2 (keccakRound 1 (keccakRound 0 Lanes.zero))).at 4 4 = 0x06000C00C0063266 := by decide

/-- V-PERM-2 and V-PERM-4, one lane each. -/
theorem test_permute_twice : (permute (permute Lanes.zero)).at 0 0 = 0x2D5C954DF96ECB3C := by decide +kernel
theorem test_permute_ones : (permute (Lanes.of fun _ _ => BitVec.allOnes 64)).at 4 4 = 0x3F82AFE91CA4B9B0 := by decide +kernel

/-- V-BYTE-1. -/
theorem test_byte_view : readByte (Lanes.zero.put 3 0 0x1F1E1D1C1B1A1918) 24 = 0x18 ∧
    readByte (Lanes.zero.put 1 3 0x8000000000000000) 135 = 0x80 ∧
    readByte (Lanes.zero.put 4 4 0xC7C6C5C4C3C2C1C0) 199 = 0xC7 := by decide

/-! ### The commands, one step each -/

/-- V-INIT-1's last word. -/
theorem test_init : seen (execInit .sha3_512 { engine .absorb .sha3_256 2 with lanes := Lanes.zero.put 0 0 0x6261 })
    (fun s => (s.phase, s.variant, s.cursor, s.lanes)) = some (.absorb, .sha3_512, 0, Lanes.zero) := by decide

/-- Rule R142's worked example, its third byte. -/
theorem test_absorb : seen (execAbsorb 0x63 { engine .absorb .sha3_224 2 with lanes := Lanes.zero.put 0 0 0x6261 })
    (fun s => (s.lanes.at 0 0, s.cursor)) = some (0x636261, 3) := by decide

/-- V-PAD-7: the 72nd zero byte of a SHA3-512 message fills the block. -/
theorem test_absorb_full : seen (execAbsorb 0 (engine .absorb .sha3_512 71)) (fun s => (s.lanes.at 0 0, s.cursor)) =
    some (0xF1258F7940E1DDE7, 0) := by decide

/-- Program P1 after FINALIZE. -/
theorem test_finalize : seen (execFinalize (engine .absorb .sha3_256 0)) (fun s => (s.lanes.at 0 0, s.phase, s.cursor)) =
    some (0x66D71EBFF8C6FFA7, .squeeze, 0) := by decide

/-- Program P4 after FINALIZE: the two padding bytes meet. -/
theorem test_finalize_pad : seen (execFinalize (engine .absorb .sha3_512 71)) (fun s => s.lanes.at 0 0) =
    some 0x5617C994714187CD := by decide

/-- Program P1's second SQUEEZE: the byte is 0xFF. -/
theorem test_squeeze : seen (execSqueeze { engine .squeeze .sha3_256 1 with lanes := Lanes.zero.put 0 0 0x66D71EBFF8C6FFA7 })
    (fun s => (s.rsp, s.cursor)) = some (some 0xFF, 2) := by decide

/-- V-FLT-7: the 29th SQUEEZE of SHA3-224. -/
theorem test_squeeze_overrun : seen (execSqueeze (engine .squeeze .sha3_224 28)) (fun s => (outputs s, s.cursor)) =
    some (⟨true, none, 2, true, 3⟩, 28) := by decide

/-- V-FLT-12: an illegal word in phase IDLE gives cause 1, not 2. -/
theorem test_illegal_before_phase : seen (step (State.reset.withFetchWord 16 0x661)) outputs =
    some ⟨true, none, 0, true, 1⟩ := by decide

/-- V-FLT-1: ABSORB in phase IDLE. -/
theorem test_absorb_in_idle : seen (step (State.reset.withFetchWord 16 0x400)) outputs = some ⟨true, none, 0, true, 2⟩ := by decide

/-- V-FLT-14: INIT does not clear a fault. -/
theorem test_init_after_fault : seen (step ((faulted .squeeze .phaseViolation).withFetchWord 16 0x100)) outputs =
    some ⟨true, none, 2, true, 2⟩ := by decide

/-- Rule R211: a reset event clears it. -/
theorem test_reset_after_fault : seen (step { faulted .squeeze .phaseViolation with inputs := [.reset] }) (fun s => s) =
    some State.reset := by decide

/-! ### Whole computations (vectors V-DIG) and the assembler -/

/-- V-DIG-EMPTY-0. -/
theorem test_digest_empty : digest .sha3_224 [] =
    [0x6b, 0x4e, 0x03, 0x42, 0x36, 0x67, 0xdb, 0xb7, 0x3b, 0x6e, 0x15, 0x45, 0x4f, 0x0e, 0xb1, 0xab, 0xd4, 0x59, 0x7f, 0x9a,
     0x1b, 0x07, 0x8e, 0x3f, 0x5b, 0x5a, 0x6b, 0xc7] := by decide +kernel

/-- V-DIG-EDGE-3-rate+1: one full block and one byte, its first bytes. -/
theorem test_digest_two_blocks : (digest .sha3_512 ((List.range 73).map (BitVec.ofNat 8))).take 4 =
    [0x92, 0x1d, 0x9b, 0x7b] := by decide +kernel

theorem test_assemble : assembleText ["; SHA3-256 of a", "INIT 1 ; 0x100", "ABSORB 'a'", "FINALIZE", "SQUEEZE"] =
    some [.init .sha3_256, .absorb 0x61, .finalize, .squeeze] := by decide
theorem test_assemble_hash : assembleText ["HASH SHA3_224, 0x61 'b'"] = some (hashProgram .sha3_224 [0x61, 0x62]) := by decide
theorem test_hex : parseHex "0x9aF".toList = some 0x9AF ∧ parseHex "0x".toList = none ∧ parseHex "0xG".toList = none := by decide
theorem test_hex_round_trip : ∀ n : Fin 16, hexDigit (showHexDigit n.val) = some n.val := by decide
theorem test_trace : traceLine .squeeze (some 0xA7) = "SQUEEZE -> 0xA7" ∧ traceLine (.init .sha3_512) none = "INIT 3" ∧
    traceLine (.absorb 0x0F) none = "ABSORB 0x0F" := by decide
theorem test_assemble_refuses : assembleText ["INIT 4"] = none ∧ assembleText ["ABSORB 0x100"] = none ∧
    assembleText ["FINALIZE_AND_SQUEEZE"] = none ∧ assembleText ["NOP"] = none := by decide

/-! ### Witnesses: for each statement with hypotheses, states and operands that meet them, at the boundaries -/

theorem witness_IllegalWordsAreThoseOfTheRule : decode 0x001 = .error .initData ∧ State.reset.fault = false := ⟨rfl, rfl⟩

theorem witness_FormatsAreThoseOfTheRule : opcodeRows.map (fun r => r.selects 0x4FF) = [false, true, false, false] := by decide

theorem witness_StepRunsTheIssuedCommand :
    (State.reset.withFetchWord 16 0x461).inputs = .issue 0x461 :: [] ∧ decode 0x461 = .ok (.absorb 0x61) := ⟨rfl, rfl⟩

theorem witness_PrologueOfAnIssuedWord :
    (((faulted .absorb .illegalEncoding).withFetchWord 16 0x100).inputs = .issue 0x100 :: [] ∧
      ((faulted .absorb .illegalEncoding).withFetchWord 16 0x100).fault = true) ∧
    ((State.reset.withFetchWord 16 0x3FF).inputs = .issue 0x3FF :: [] ∧
      (State.reset.withFetchWord 16 0x3FF).fault = false ∧ decode 0x3FF = .error .initData) ∧
    ((State.reset.withFetchWord 16 0x300).inputs = .issue 0x300 :: [] ∧ decode 0x300 = .ok (.init .sha3_512)) :=
  ⟨⟨rfl, rfl⟩, ⟨rfl, rfl, rfl⟩, ⟨rfl, rfl⟩⟩

theorem witness_ChecksComeInTheOrderOfTheRule :
    Inv (faulted .absorb .phaseViolation) ∧ (Inv State.reset ∧ decode 0x801 = .error .finalizeReserved) ∧
    (Inv (engine .squeeze .sha3_256 0) ∧ decode 0x461 = .ok (.absorb 0x61)) ∧
    (Inv (engine .absorb .sha3_512 71) ∧ decode 0xC00 = .ok .squeeze) ∧
    (Inv (engine .squeeze .sha3_512 64) ∧ (engine .squeeze .sha3_512 64).cursor.toNat = (lut .sha3_512).outputBytes) ∧
    (Inv (engine .squeeze .sha3_512 63) ∧ (engine .squeeze .sha3_512 63).cursor.toNat ≠ (lut .sha3_512).outputBytes) :=
  ⟨by decide, ⟨by decide, rfl⟩, ⟨by decide, rfl⟩, ⟨by decide, rfl⟩, ⟨by decide, rfl⟩, ⟨by decide, by decide⟩⟩

theorem witness_ResetEventGivesTheResetState :
    ({ faulted .squeeze .phaseViolation with inputs := [.reset] } : State).inputs = .reset :: [] ∧
    ({ faulted .squeeze .phaseViolation with inputs := [.resetDuring 0xC00, .wait] } : State).inputs =
      .resetDuring 0xC00 :: [.wait] := ⟨rfl, rfl⟩

theorem witness_OnlyResetClearsTheFault :
    let s := (faulted .absorb .illegalEncoding).withFetchWord 16 0x100
    step s = .next (faulted .absorb .illegalEncoding) ∧ (∀ e ∈ s.inputs.head?, e.isReset = false) ∧
      s.fault = true ∧ s.phase ≠ .idle := by
  refine ⟨rfl, ?_, rfl, ?_⟩ <;> decide

theorem witness_StateHoldsWhileTheHostWaits :
    (engine .squeeze .sha3_256 3).inputs = [] ∧
    ({ engine .squeeze .sha3_256 3 with inputs := [.wait] } : State).inputs = .wait :: [] := ⟨rfl, rfl⟩

theorem witness_OnlyASuccessfulSqueezeResponds :
    ∃ t, step ((engine .squeeze .sha3_224 27).withFetchWord 16 0xC00) = .next t ∧ t.rsp = some 0 := ⟨_, rfl, by decide⟩

theorem witness_InitByItsRule : (engine .squeeze .sha3_256 32).fault = false ∧
    (engine .squeeze .sha3_256 32).cause = .noFault ∧ (faulted .absorb .illegalEncoding).fault = true ∧
    exec (.init .sha3_224) (engine .squeeze .sha3_256 32) = .next (engine .absorb .sha3_224 0) := ⟨rfl, rfl, rfl, rfl⟩

/-- The last byte of a block, the one before it, and a phase that faults. -/
theorem witness_AbsorbByItsRule :
    (engine .squeeze .sha3_256 0).phase ≠ .absorb ∧
    (let s := engine .absorb .sha3_224 143
     s.fault = false ∧ s.phase = .absorb ∧ s.cursor.toNat < (lut s.variant).rateBytes ∧ (143 : Addr).val = s.cursor.toNat ∧
       s.cursor.toNat + 1 = (lut s.variant).rateBytes) ∧
    (let s := engine .absorb .sha3_224 142
     s.fault = false ∧ s.phase = .absorb ∧ s.cursor.toNat < (lut s.variant).rateBytes ∧ (142 : Addr).val = s.cursor.toNat ∧
       s.cursor.toNat + 1 ≠ (lut s.variant).rateBytes) := by decide

/-- The padding bytes meet, and they do not. -/
theorem witness_FinalizeByItsRule :
    (engine .idle .sha3_224 0).phase ≠ .absorb ∧
    (let s := engine .absorb .sha3_512 71
     s.fault = false ∧ s.phase = .absorb ∧ s.cursor.toNat < (lut s.variant).rateBytes ∧ (71 : Addr).val = s.cursor.toNat ∧
       (71 : Addr).val = (lut s.variant).rateBytes - 1) ∧
    (let s := engine .absorb .sha3_512 70
     s.fault = false ∧ s.phase = .absorb ∧ s.cursor.toNat < (lut s.variant).rateBytes ∧ (70 : Addr).val = s.cursor.toNat ∧
       (70 : Addr) ≠ 71) := by decide

/-- The end of the digest, its last byte, and a phase that faults. -/
theorem witness_SqueezeByItsRule :
    (engine .absorb .sha3_384 0).phase ≠ .squeeze ∧
    (let s := engine .squeeze .sha3_384 48
     s.fault = false ∧ s.phase = .squeeze ∧ s.cursor.toNat = (lut s.variant).outputBytes) ∧
    (let s := engine .squeeze .sha3_384 47
     s.fault = false ∧ s.phase = .squeeze ∧ s.cursor.toNat < (lut s.variant).outputBytes ∧ (47 : Addr).val = s.cursor.toNat) := by
  decide

theorem witness_PhaseTable :
    Inv State.reset ∧ Inv (engine .absorb .sha3_256 135) ∧ Inv (engine .squeeze .sha3_256 32) ∧
    Inv (engine .squeeze .sha3_256 0) ∧ State.reset.fault = false :=
  ⟨by decide, by decide, by decide, by decide, rfl⟩

theorem witness_CursorOutOfRangeIsRefused :
    (let s := engine .absorb .sha3_512 72
     s.fault = false ∧ s.phase = .absorb ∧ (lut s.variant).rateBytes ≤ s.cursor.toNat) ∧
    (let s := engine .squeeze .sha3_512 65
     s.fault = false ∧ s.phase = .squeeze ∧ (lut s.variant).outputBytes < s.cursor.toNat) := by decide

theorem witness_FaultEntryIsPrecise :
    ∃ t, step (State.reset.withFetchWord 16 0xC00) = .next t ∧ State.reset.fault = false ∧ t.fault = true := ⟨_, rfl, rfl, rfl⟩

theorem witness_CausesAreRaisedByTheirCommands :
    (∃ t, exec .finalize State.reset = .next t ∧ t.fault = true) ∧
    (∃ t, exec .squeeze (engine .squeeze .sha3_224 28) = .next t ∧ t.fault = true) := ⟨⟨_, rfl, rfl⟩, ⟨_, rfl, rfl⟩⟩

theorem witness_FaultStateIsAbsorbing : (faulted .squeeze .squeezeOverrun).fault = true := rfl

theorem witness_CommandsWriteOnlyTheirRegisters :
    (∃ t, exec .squeeze (engine .squeeze .sha3_224 27) = .next t ∧ t.fault = false) ∧
    (∃ t, exec (.absorb 1) (engine .absorb .sha3_224 0) = .next t ∧ t.fault = false) ∧
    (∃ t, exec .squeeze State.reset = .next t ∧ State.reset.fault = false ∧ t.fault = true) ∧
    (faulted .absorb .illegalEncoding).fault = true :=
  ⟨⟨_, rfl, rfl⟩, ⟨_, rfl, rfl⟩, ⟨_, rfl, rfl, rfl⟩, rfl⟩

theorem witness_AbsorbStoresOneByte :
    (let s := engine .absorb .sha3_256 135
     s.fault = false ∧ s.phase = .absorb ∧ cursorAddr s (lutRead s).rateBytes = some 135 ∧ ∃ t, exec (.absorb 7) s = .next t) ∧
    (let s := engine .absorb .sha3_256 0
     s.fault = false ∧ s.phase = .absorb ∧ cursorAddr s (lutRead s).rateBytes = some 0 ∧ ∃ t, exec (.absorb 7) s = .next t) :=
  ⟨⟨rfl, rfl, by decide, _, rfl⟩, ⟨rfl, rfl, by decide, _, rfl⟩⟩

theorem witness_FinalizePadsTwoBytes :
    (let s := engine .absorb .sha3_512 71
     s.fault = false ∧ s.phase = .absorb ∧ cursorAddr s (lutRead s).rateBytes = some 71 ∧ ∃ t, exec .finalize s = .next t) ∧
    (let s := engine .absorb .sha3_512 0
     s.fault = false ∧ s.phase = .absorb ∧ cursorAddr s (lutRead s).rateBytes = some 0 ∧ ∃ t, exec .finalize s = .next t) :=
  ⟨⟨rfl, rfl, by decide, _, rfl⟩, ⟨rfl, rfl, by decide, _, rfl⟩⟩

theorem witness_SqueezeFrame :
    (∃ t, exec .squeeze (engine .squeeze .sha3_224 27) = .next t ∧ t.fault = false) ∧
    (∃ t, exec .squeeze (engine .squeeze .sha3_224 28) = .next t ∧ t.fault = true) := ⟨⟨_, rfl, rfl⟩, ⟨_, rfl, rfl⟩⟩

theorem witness_CapacityRegionIsNeverAddressed :
    let s := engine .absorb .sha3_512 70
    (lut s.variant).rateBytes ≤ (72 : Addr).val ∧ cursorAddr s (lutRead s).rateBytes = some 70 ∧
      cursorAddr (engine .squeeze .sha3_512 63) 64 = some 63 ∧ s.fault = false ∧ s.phase = .absorb ∧
      s.cursor.toNat + 1 ≠ (lut s.variant).rateBytes ∧ ∃ t, exec (.absorb 7) s = .next t :=
  ⟨by decide, by decide, by decide, rfl, rfl, by decide, _, rfl⟩

/-- Byte 28 of SHA3-224, the first that no digest shows, differs. -/
theorem witness_SqueezeShowsOnlyDigestBytes :
    let s := engine .squeeze .sha3_224 27
    (∀ k : Addr, k.val < (lut s.variant).outputBytes → readByte (writeByte s.lanes 28 1) k = readByte s.lanes k) ∧
      writeByte s.lanes 28 1 ≠ s.lanes ∧ ∃ t, exec .squeeze s = .next t := ⟨by decide +kernel, by decide +kernel, _, rfl⟩

theorem witness_StepKeepsTheInvariant :
    Inv (engine .absorb .sha3_256 134) ∧ ∃ t, step ((engine .absorb .sha3_256 134).withFetchWord 16 0x4FF) = .next t :=
  ⟨by decide, _, rfl⟩

theorem witness_InvariantStatesAlwaysStep : Inv (engine .squeeze .sha3_256 32) := by decide

theorem witness_OnlyInitOrResetChangesTheVariant :
    (∃ t, step (State.reset.withFetchWord 16 0x300) = .next t ∧ t.variant ≠ State.reset.variant) ∧
    (∃ t, step { engine .absorb .sha3_512 0 with inputs := [.reset] } = .next t ∧ t.variant ≠ .sha3_512) :=
  ⟨⟨_, rfl, by decide⟩, ⟨_, rfl, by decide⟩⟩

theorem witness_ByteViewOfTheLanes :
    (24 : Fin 25).val = 5 * (4 : Fin 5).val + (4 : Fin 5).val ∧ (199 : Addr).val / 8 = (24 : Fin 25).val := by decide

theorem witness_XorIntoAByteIsXorIntoItsLane :
    (135 : Addr).val / 8 = 5 * (3 : Fin 5).val + (1 : Fin 5).val ∧ ((0 : Fin 5), (0 : Fin 5)) ≠ (1, 3) := by decide

theorem witness_ByteSpaceDeterminesTheLanes : memoryCells (writeByte Lanes.zero 199 5) = [(199, 5)] ∧
    memoryCells (writeByte (writeByte Lanes.zero 199 5) 199 0) = memoryCells Lanes.zero := by decide +kernel

theorem witness_RotateLeftMovesBits : (63 : Nat) < 64 ∧ (rol64 0x8000000000000000 63).getLsbD ((63 + 63) % 64) = true := by decide

theorem witness_ThetaByItsRule (a : Lanes) : ∃ c d : Fin 5 → Lane,
    (∀ x, c x = a.at x 0 ^^^ a.at x 1 ^^^ a.at x 2 ^^^ a.at x 3 ^^^ a.at x 4) ∧
    (∀ x, d x = c (x + 4) ^^^ rol64 (c (x + 1)) 1) := ⟨_, _, fun _ => rfl, fun _ => rfl⟩

theorem witness_RhoPiByItsRule : ((4 : Fin 5), (4 : Fin 5)) ≠ (0, 0) ∧ rot 4 4 = rot 4 4 := by decide

theorem witness_ChiByItsRule : (∀ x, Lanes.zero.at x 4 = 0) ∧
    (∀ x, (Lanes.of fun _ _ => BitVec.allOnes 64).at x 4 = BitVec.allOnes 64) := by decide

theorem witness_IotaByItsRule : ((0 : Fin 5), (1 : Fin 5)) ≠ (0, 0) := by decide

theorem witness_PermuteRunsTheRoundsInOrder (a : Lanes) : ∃ st : Nat → Lanes, st 0 = a ∧
    ∀ i : Fin 24, st (i.val + 1) = keccakRound i (st i.val) :=
  ⟨fun n => ((List.finRange 24).take n).foldl (fun s r => keccakRound r s) a, rfl, fun i => by fin_cases i <;> rfl⟩

theorem witness_ComputationReturnsTheDigest :
    ({ State.reset with inputs := issueAll (hashProgram .sha3_224 [0x61]) ++ [.wait] } : State).inputs =
      issueAll (hashProgram .sha3_224 [0x61]) ++ [.wait] ∧ State.reset.fault = false ∧
      (faulted .absorb .illegalEncoding).fault = true := ⟨rfl, rfl, rfl⟩

theorem witness_ExactlyOutlenSqueezesSucceed :
    let s := engine .squeeze .sha3_512 0
    s.fault = false ∧ s.phase = .squeeze ∧ s.cursor = 0 ∧ 64 ≤ (lut s.variant).outputBytes := by decide

theorem witness_EveryMessageIsAbsorbed :
    let s := engine .absorb .sha3_512 71
    s.fault = false ∧ s.phase = .absorb ∧ s.cursor.toNat < (lut s.variant).rateBytes := by decide

theorem witness_AbsorbIsChunkInvariant :
    ∃ t, execAll (absorbBytes [0x61, 0x62]) (engine .absorb .sha3_256 0) = .next t := ⟨_, rfl⟩

theorem witness_InitForgetsThePast :
    Inv (engine .squeeze .sha3_256 32) ∧ Inv State.reset ∧ (engine .squeeze .sha3_256 32).fault = false ∧
      ∃ t, execAll [.init .sha3_224, .absorb 1, .init .sha3_512] (engine .squeeze .sha3_256 32) = .next t :=
  ⟨by decide, by decide, rfl, _, rfl⟩

theorem witness_BufferedMachineIsEquivalent :
    State.reset.fault = false ∧ [0x61].foldl (bufferedAbsorb .sha3_256) Buffered.fresh = ⟨Lanes.zero, [0x61]⟩ := by decide

end Sys2Proof.Tests
end

section
/-! Rule R11: `rol64` is the library's rotation of a 64-bit word, bit by bit. -/

namespace Sys2Proof.Proofs.Rotation

open Sys2Proof Sys2Proof.Machine

@[simp] theorem rol64_zero (v : Lane) : rol64 v 0 = v := rfl

/-- On the amounts R11 allows, the model's rotation is `BitVec.rotateLeft`. -/
theorem rol64_eq_rotateLeft (v : Lane) {n : Nat} (hn : n < 64) : rol64 v n = v.rotateLeft n := by
  rw [BitVec.rotateLeft_def, Nat.mod_eq_of_lt hn]
  by_cases h0 : n = 0
  · simp [h0, BitVec.ushiftRight_eq_zero]
  · simp [rol64, h0]

/-- Either the moved bit stays below bit 64, or it wraps round into the low `n` bits. -/
theorem getLsbD_rol64_add_mod (v : Lane) {n i : Nat} (hn : n < 64) (hi : i < 64) :
    (rol64 v n).getLsbD ((i + n) % 64) = v.getLsbD i := by
  rw [rol64_eq_rotateLeft v hn, BitVec.getLsbD_rotateLeft_of_le hn]
  by_cases hstay : i + n < 64
  · have htarget : (i + n) % 64 = i + n := Nat.mod_eq_of_lt hstay
    simp [htarget, hstay]
  · have htarget : (i + n) % 64 = i + n - 64 := by omega
    have hlow : i + n - 64 < n := by omega
    have hsource : 64 - n + (i + n - 64) = i := by omega
    simp [htarget, hlow, hsource]

/-- Settles O39: the model's rotation is the library's, whose bits are followed in the two cases. -/
theorem rotateLeftMovesBits : Obligations.RotateLeftMovesBits :=
  ⟨rol64_zero, fun v _ _ hn hi => getLsbD_rol64_add_mod v hn hi⟩

end Sys2Proof.Proofs.Rotation
end

section
/-! What a command and a step may write, register by register (rules R24 to R31), read off the model's two lists of
cases, `ExecCase` and `StepCase`. -/

namespace Sys2Proof.Proofs.Registers

open Sys2Proof Sys2Proof.Machine

section commands
variable {i : Instr} {s t : State}

theorem execCase_inputs (h : ExecCase s i t) : t.inputs = s.inputs := by
  cases h <;> rfl

/-- The variant register is written by INIT alone (rule R27). -/
theorem execCase_variant (h : ExecCase s i t) :
    t.variant = s.variant ∨ (i = .init t.variant ∧ s.fault = false) := by
  cases h with
  | constructed hf => exact .inr ⟨rfl, hf⟩
  | _ => exact .inl rfl

/-- The phase register is written by INIT and FINALIZE alone, and neither writes IDLE (rule R28). -/
theorem execCase_phase (h : ExecCase s i t) :
    t.phase = s.phase ∨ ((∃ v, i = .init v) ∧ t.phase = .absorb) ∨ (i = .finalize ∧ t.phase = .squeeze) := by
  cases h with
  | @constructed v _ => exact .inr (.inl ⟨⟨v, rfl⟩, rfl⟩)
  | finalized => exact .inr (.inr ⟨rfl, rfl⟩)
  | _ => exact .inl rfl

theorem execCase_phase_ne_idle (h : ExecCase s i t) (hs : s.phase ≠ .idle) : t.phase ≠ .idle := by
  obtain hp | ⟨-, hp⟩ | ⟨-, hp⟩ := execCase_phase h
  · rwa [hp]
  · simp [hp]
  · simp [hp]

/-- `fault` and `cause` are written by fault entry alone, which writes nothing else of the engine (rules R29, R186). -/
theorem execCase_fault (h : ExecCase s i t) :
    (t.fault = s.fault ∧ t.cause = s.cause) ∨ (s.fault = false ∧ ∃ c, c ≠ .noFault ∧ t = enterFault c s) := by
  cases h with
  | violated hf _ => exact .inr ⟨hf, _, by decide, rfl⟩
  | overrun hf _ _ => exact .inr ⟨hf, _, by decide, rfl⟩
  | _ => exact .inl ⟨rfl, rfl⟩

theorem squeezeCase_lanes (h : ExecCase s .squeeze t) : t.lanes = s.lanes := by
  cases h <;> rfl

/-- Only SQUEEZE delivers a byte (rule R92). -/
theorem execCase_no_response (h : ExecCase s i t) (hi : i ≠ .squeeze) : t.received = s.received ∧ t.rsp = none := by
  cases h with
  | squeezed => exact absurd rfl hi
  | _ => exact ⟨rfl, rfl⟩

/-- In the fault state every command is discarded, the other cases all asking for `fault = 0` (rule R187). -/
theorem execCase_of_fault (h : ExecCase s i t) (hf : s.fault = true) : t = quiet s := by
  cases h with
  | discarded => rfl
  | _ => simp_all

end commands

/-- Settles O23: clause by clause, from what each command writes to each register. -/
theorem commandsWriteOnlyTheirRegisters : Obligations.CommandsWriteOnlyTheirRegisters := by
  intro i s t hx
  have h := exec_cases hx
  refine ⟨execCase_inputs h, fun hinit => ?variant, fun hinit hfin => ?phase, ?squeeze, execCase_no_response h,
    fun hkept => ?cause, fun hf => ?sticky, fun hf ht k => ?entry⟩
  case variant => exact (execCase_variant h).resolve_right fun hv => hinit _ hv.1
  case phase =>
    obtain hp | ⟨⟨v, hv⟩, -⟩ | ⟨hi, -⟩ := execCase_phase h
    · exact hp
    · exact absurd hv (hinit v)
    · exact absurd hi hfin
  case squeeze =>
    rintro rfl k
    rw [squeezeCase_lanes h]
  case cause =>
    obtain ⟨-, hc⟩ | ⟨hf, c, -, rfl⟩ := execCase_fault h
    · exact hc
    · simp [hf] at hkept
  case sticky => rwa [execCase_of_fault h hf]
  case entry =>
    obtain ⟨hkept, -⟩ | ⟨-, c, -, rfl⟩ := execCase_fault h
    · simp [hkept, hf] at ht
    · rfl

theorem isReset_iff {e : HostEvent} : e.isReset = true ↔ e = .reset ∨ ∃ w, e = .resetDuring w := by
  cases e <;> simp [HostEvent.isReset]

section steps
variable {s t : State}

/-- In the fault state every event but a reset is discarded (rules R187, R188). -/
theorem stepCase_of_fault (h : StepCase s t) (hr : ∀ e ∈ s.inputs.head?, e.isReset = false) (hf : s.fault = true) :
    t = quiet (takeInput s.inputs.tail s) := by
  cases h with
  | idle hin => rw [hin, List.tail_nil, ← hin]; rfl
  | waited hin => rw [hin, List.tail_cons]
  | resetEvent hin he => simp [hin, isReset_iff.2 he] at hr
  | illegal hin _ => rw [hin, List.tail_cons, if_pos hf]
  | command hin _ hx => rw [hin, List.tail_cons, execCase_of_fault hx (by simpa using hf)]

/-- Only a reset event returns the phase to IDLE (rules R28, R211). -/
theorem stepCase_phase_ne_idle (h : StepCase s t) (hr : ∀ e ∈ s.inputs.head?, e.isReset = false)
    (hs : s.phase ≠ .idle) : t.phase ≠ .idle := by
  cases h with
  | idle _ => exact hs
  | waited _ => exact hs
  | resetEvent hin he => simp [hin, isReset_iff.2 he] at hr
  | illegal _ _ => split <;> exact hs
  | command _ _ hx => exact execCase_phase_ne_idle hx hs

/-- A changed variant is an executed INIT's or the reset value (rules R27, R211). -/
theorem stepCase_variant (h : StepCase s t) :
    t.variant = s.variant ∨
    (∃ w rest, s.inputs = .issue w :: rest ∧ decode w = .ok (.init t.variant) ∧ s.fault = false) ∨
    (∃ e rest, s.inputs = e :: rest ∧ e.isReset = true ∧ t.variant = .sha3_224) := by
  cases h with
  | idle _ => exact .inl rfl
  | waited _ => exact .inl rfl
  | resetEvent hin he => exact .inr (.inr ⟨_, _, hin, isReset_iff.2 he, rfl⟩)
  | illegal _ _ => left; split <;> rfl
  | command hin hd hx =>
    obtain hv | ⟨rfl, hf⟩ := execCase_variant hx
    · exact .inl hv
    · exact .inr (.inl ⟨_, _, hin, hd, hf⟩)

end steps

/-- Settles O10: in the fault state the event is discarded, and no command writes IDLE. -/
theorem onlyResetClearsTheFault : Obligations.OnlyResetClearsTheFault := by
  intro s t hstep hr
  have h := step_cases hstep
  refine ⟨fun hf => ?_, stepCase_phase_ne_idle h hr⟩
  rw [stepCase_of_fault h hr hf]
  simp [SameEngine]

/-- A word decodes only to the command whose word it is (rules R84, R88): one case for each value of `op`. -/
theorem encode_of_decode {w : CmdWord} {i : Instr} (h : decode w = .ok i) : encode i = w := by
  have hop : ∀ op : BitVec 2, op = 0 ∨ op = 1 ∨ op = 2 ∨ op = 3 := by decide
  revert h
  refine forall_word (p := fun w => decode w = .ok i → encode i = w) (fun op var data h => ?_) w
  obtain rfl | rfl | rfl | rfl := hop op
  all_goals
    simp only [decode_op0, decode_op1, decode_op2, decode_op3] at h
    split at h
    · cases h
      simp [encode, *]
    · cases h

/-- Settles O32: the word that changed the variant decodes to an INIT of the new one, so it is that INIT's word. -/
theorem onlyInitOrResetChangesTheVariant : Obligations.OnlyInitOrResetChangesTheVariant := by
  intro s t hstep hne
  obtain hv | ⟨w, rest, hin, hd, hf⟩ | hreset := stepCase_variant (step_cases hstep)
  · exact absurd hv hne
  · exact .inl ⟨rest, by rw [hin, encode_of_decode hd], hf⟩
  · exact .inr hreset

/-- Settles O9: the reset values, register by register. -/
theorem resetValuesOfTheEngine : Obligations.ResetValuesOfTheEngine :=
  ⟨Lanes.at_zero, rfl, rfl, rfl, rfl, rfl⟩

theorem phaseCode_injective : Function.Injective phaseCode := by
  intro p q h
  cases p <;> cases q <;> simp [phaseCode] at h ⊢

theorem causeCode_injective : Function.Injective causeCode := by
  intro c d h
  cases c <;> cases d <;> simp [causeCode] at h ⊢

/-- Settles O13: phase SQUEEZE is the phase of code 2, since the codes are distinct. -/
theorem statusOutputsAreTheRegisters : Obligations.StatusOutputsAreTheRegisters := by
  refine ⟨fun s => ⟨rfl, rfl, rfl, ?_⟩, @phaseCode_injective, @causeCode_injective⟩
  have hcode : phaseCode s.phase = 2#2 ↔ s.phase = .squeeze := phaseCode_injective.eq_iff (b := .squeeze)
  simp [digestReady, outputs, hcode]

end Sys2Proof.Proofs.Registers
end

section
/-! Rule R36: the reset state has the invariants, each write a command makes keeps them, and so does every step.
Outside them, the model's stop. -/

namespace Sys2Proof.Proofs.Invariant

open Sys2Proof Sys2Proof.Machine

/-- A cursor below a bound of the LUT does not wrap when it counts one up. -/
theorem toNat_cursor_succ {c : BitVec 8} {n : Nat} (hc : c.toNat < n) (hn : n ≤ 144) :
    (c + 1).toNat = c.toNat + 1 :=
  BitVec.toNat_add_of_lt (by change c.toNat + 1 < 256; omega)

section writes
variable {s : State}

theorem inv_reset : Inv State.reset :=
  ⟨fun _ => ⟨rfl, rfl, rfl⟩, nofun, nofun, fun _ => rfl, fun _ => rfl⟩

/-- The host's lists are not the engine's, so the invariant does not read them. -/
theorem inv_resetEngine (s : State) : Inv (resetEngine s) := inv_reset

theorem inv_quiet (hs : Inv s) : Inv (quiet s) := hs

theorem inv_takeInput (hs : Inv s) (rest : List HostEvent) : Inv (takeInput rest s) := hs

theorem inv_enterFault {c : Cause} (hs : Inv s) (hc : c ≠ .noFault) : Inv (enterFault c s) := by
  obtain ⟨hidle, habsorb, hsqueeze, -⟩ := hs
  exact ⟨hidle, habsorb, hsqueeze, by simp [hc]⟩

theorem inv_construct (hs : Inv s) (v : Variant) : Inv (construct v s) := by
  obtain ⟨-, -, -, hfault⟩ := hs
  have hrate : 0 < (lut v).rateBytes := by have := lut_bounds v; omega
  exact ⟨nofun, fun _ => hrate, nofun, hfault⟩

theorem inv_putBlock {c : BitVec 8} (hs : Inv s) (hp : s.phase = .absorb) (hc : c.toNat < (lut s.variant).rateBytes)
    (a : Lanes) : Inv (putBlock a c s) := by
  obtain ⟨-, -, -, hfault⟩ := hs
  exact ⟨by simp [hp], fun _ => hc, by simp [hp], hfault⟩

theorem inv_setPhase_squeeze (hs : Inv s) (hc : s.cursor = 0) : Inv (setPhase .squeeze s) := by
  obtain ⟨-, -, -, hfault⟩ := hs
  exact ⟨nofun, nofun, by simp [hc], hfault⟩

theorem inv_respond (hs : Inv s) (b : Byte) : Inv (respond b s) := hs

theorem inv_advanceCursor (hs : Inv s) (hp : s.phase = .squeeze)
    (hc : s.cursor.toNat < (lut s.variant).outputBytes) : Inv (advanceCursor s) := by
  obtain ⟨-, -, -, hfault⟩ := hs
  have hsucc : (s.cursor + 1).toNat = s.cursor.toNat + 1 :=
    toNat_cursor_succ hc (by have := lut_bounds s.variant; omega)
  exact ⟨by simp [hp], by simp [hp], fun _ => by rw [advanceCursor_cursor, hsucc]; exact hc, hfault⟩

end writes

/-- Each command leaves the cursor below the bound of the phase it leaves. -/
theorem execCase_inv {i : Instr} {s t : State} (h : ExecCase s i t) (hs : Inv s) : Inv t := by
  have hquiet : Inv (quiet s) := inv_quiet hs
  have hrate : 0 < (lut s.variant).rateBytes ∧ (lut s.variant).rateBytes ≤ 144 := by
    have := lut_bounds s.variant; omega
  cases h with
  | discarded _ => exact hquiet
  | constructed _ => exact inv_construct hquiet _
  | violated _ _ => exact inv_enterFault hs (by decide)
  | filled _ hp _ _ => exact inv_putBlock (c := 0) hquiet hp hrate.1 _
  | absorbed _ hp hk hc =>
    have hlt := (cursorAddr_eq_some.1 hk).2
    refine inv_putBlock hquiet hp ?_ _
    rw [toNat_cursor_succ hlt hrate.2, quiet_variant]
    omega
  | finalized _ hp _ => exact inv_setPhase_squeeze (inv_putBlock (c := 0) hquiet hp hrate.1 _) rfl
  | overrun _ _ _ => exact inv_enterFault hs (by decide)
  | squeezed _ hp hk => exact inv_advanceCursor (inv_respond hquiet _) hp (cursorAddr_eq_some.1 hk).2

theorem stepCase_inv {s t : State} (h : StepCase s t) (hs : Inv s) : Inv t := by
  cases h with
  | idle _ => exact inv_quiet hs
  | waited _ => exact inv_quiet (inv_takeInput hs _)
  | resetEvent _ _ => exact inv_resetEngine _
  | illegal _ _ =>
    split
    · exact inv_quiet (inv_takeInput hs _)
    · exact inv_enterFault (inv_takeInput hs _) (by decide)
  | command _ _ hx => exact execCase_inv hx (inv_takeInput hs _)

/-- Settles O29: whatever the event, by the cases of a step. -/
theorem stepKeepsTheInvariant : Obligations.StepKeepsTheInvariant :=
  fun _ _ hs hstep => stepCase_inv (step_cases hstep) hs

/-- Settles O30: the reset state is IDLE and cleared, so only I2 and I5 say something of it. -/
theorem resetHasTheInvariant : Obligations.ResetHasTheInvariant := inv_reset

/-- Settles O19: past its bound, `cursor` gives no address, so the command has no byte to work on. -/
theorem cursorOutOfRangeIsRefused : Obligations.CursorOutOfRangeIsRefused := by
  refine fun s hf => ⟨fun hp hc => ?absorbing, fun hp hc => ?squeezing⟩
  case absorbing =>
    have hnone : cursorAddr s (lut s.variant).rateBytes = none := cursorAddr_eq_none hc
    exact ⟨execAbsorb_out_of_range hf hp hnone, execFinalize_out_of_range hf hp hnone⟩
  case squeezing => exact execSqueeze_out_of_range hf hp (by omega) (cursorAddr_eq_none (by omega))

end Sys2Proof.Proofs.Invariant
end

section
/-! Rules R22 and R23: a lane and its eight bytes are the same 64 bits. -/

namespace Sys2Proof.Proofs.ByteView

open Sys2Proof Sys2Proof.Machine

/-- Flat lane `5*y + x` has the coordinates `(x, y)` (rule R21). -/
theorem lane_of_addr {k : Addr} {x y : Fin 5} (h : k.val / 8 = 5 * y.val + x.val) : laneX k = x ∧ laneY k = y := by
  constructor <;> apply Fin.ext <;> simp only [laneX, laneY, Fin.ofNat] <;> omega

/-- Byte `k` is cut from its lane (rule R22). -/
theorem readByte_eq_extract (a : Lanes) {k : Addr} {x y : Fin 5} (h : k.val / 8 = 5 * y.val + x.val) :
    readByte a k = (a.at x y).extractLsb' (8 * (k.val % 8)) 8 := by
  obtain ⟨hx, hy⟩ := lane_of_addr h
  rw [readByte, laneShift, hx, hy]

/-- A lane is its eight bytes side by side, the least significant last. -/
theorem append_bytes (l : Lane) :
    l.extractLsb' 56 8 ++ l.extractLsb' 48 8 ++ l.extractLsb' 40 8 ++ l.extractLsb' 32 8 ++ l.extractLsb' 24 8 ++
      l.extractLsb' 16 8 ++ l.extractLsb' 8 8 ++ l.extractLsb' 0 8 = l := by
  iterate 7 rw [BitVec.extractLsb'_append_extractLsb'_eq_extractLsb' (by rfl)]
  exact BitVec.extractLsb'_eq_self

theorem readByte_byteAddr (a : Lanes) (x y : Fin 5) (n : Fin 8) :
    readByte a (byteAddr x y n) = (a.at x y).extractLsb' (8 * n.val) 8 := by
  rw [readByte, laneX_byteAddr, laneY_byteAddr, laneShift_byteAddr]

theorem ofNat_eq_byteAddr {x y : Fin 5} {i : Fin 25} (h : i.val = 5 * y.val + x.val) (n : Fin 8) :
    Fin.ofNat 200 (8 * i.val + n.val) = byteAddr x y n := by
  apply Fin.ext; simp only [Fin.ofNat, byteAddr]; omega

theorem readLane_eq_at (a : Lanes) {x y : Fin 5} {i : Fin 25} (h : i.val = 5 * y.val + x.val) :
    readLane a i = a.at x y := by
  have hbyte (j : Nat) (hj : j < 8) :
      readByte a (Fin.ofNat 200 (8 * i.val + j)) = (a.at x y).extractLsb' (8 * j) 8 := by
    rw [ofNat_eq_byteAddr h ⟨j, hj⟩, readByte_byteAddr]
  simp only [readLane, hbyte, Nat.reduceLT]
  exact append_bytes _

/-- Settles O36: a byte is cut from its lane, and the eight cuts put side by side are the lane. -/
theorem byteViewOfTheLanes : Obligations.ByteViewOfTheLanes := by
  intro a x y i hi
  exact ⟨fun k hk => readByte_eq_extract a (hk.trans hi), (readLane_eq_at a hi).symm⟩

/-- What `xorByte` stores, bit by bit: below the byte and above it the lane's own bits, within it the XOR. -/
theorem xorByte_at_self (a : Lanes) (k : Addr) (v : Byte) :
    (xorByte a k v).at (laneX k) (laneY k) = a.at (laneX k) (laneY k) ^^^ (v.setWidth 64 <<< laneShift k) := by
  refine BitVec.eq_of_getLsbD_eq fun i hi => ?_
  rw [xorByte, writeByte, Lanes.at_put_self, spliced_bit _ _ _ _ hi, readByte]
  simp only [BitVec.getLsbD_xor, BitVec.getLsbD_shiftLeft, BitVec.getLsbD_setWidth, BitVec.getLsbD_extractLsb']
  obtain hbelow | habove | hin : i < laneShift k ∨ laneShift k + 8 ≤ i ∨ (laneShift k ≤ i ∧ i < laneShift k + 8) := by
    omega
  · simp [hbelow, Nat.not_le.2 hbelow]
  · have hv : v.getLsbD (i - laneShift k) = false := BitVec.getLsbD_of_ge v _ (by omega)
    simp [hv, Nat.not_lt.2 habove]
  · have hplace : laneShift k + (i - laneShift k) = i := by omega
    have hbit : i - laneShift k < 8 := by omega
    have hlane : i - laneShift k < 64 := by omega
    simp [hin, hi, hplace, hbit, hlane, Nat.not_lt.2 hin.1]

theorem xorByte_at_ne (a : Lanes) (k : Addr) (v : Byte) {x y : Fin 5} (h : (x, y) ≠ (laneX k, laneY k)) :
    (xorByte a k v).at x y = a.at x y := by
  rw [xorByte, writeByte, Lanes.at_put_ne _ _ (by rw [ne_eq, Prod.mk.injEq] at h; tauto)]

/-- Settles O37: the store into the byte's lane is an XOR of that lane, and it reaches no other. -/
theorem xorIntoAByteIsXorIntoItsLane : Obligations.XorIntoAByteIsXorIntoItsLane := by
  intro a k v x y hk
  obtain ⟨rfl, rfl⟩ := lane_of_addr hk
  refine ⟨fun j hj => ?_, xorByte_at_self a k v, fun x' y' => xorByte_at_ne a k v⟩
  simp [readByte, laneShift, hj]

end Sys2Proof.Proofs.ByteView
end

section
/-! Rules R50 and R59: the bytes determine the lanes, and no command addresses a byte from `rate` on. -/

namespace Sys2Proof.Proofs.ByteSpace

open Sys2Proof Sys2Proof.Machine

/-- The sparse listing holds exactly the non-zero bytes, each under its address. -/
theorem mem_memoryCells {a : Lanes} {k : Addr} {v : Byte} :
    (k.val, v) ∈ memoryCells a ↔ readByte a k = v ∧ v ≠ 0 := by
  simp only [memoryCells, List.mem_filterMap, List.mem_finRange, true_and, Option.ite_none_left_eq_some,
    Option.some.injEq, Prod.mk.injEq]
  constructor
  · rintro ⟨k', hne, hk, rfl⟩
    obtain rfl : k' = k := Fin.ext hk
    exact ⟨rfl, hne⟩
  · rintro ⟨rfl, hne⟩
    exact ⟨k, hne, rfl, rfl⟩

/-- A byte that is not 0 in `a` is listed for `a`, so `b`, with the same listing, holds it too. -/
theorem readByte_eq_of_memoryCells_eq {a b : Lanes} (h : memoryCells a = memoryCells b) {k : Addr}
    (hne : readByte a k ≠ 0) : readByte b k = readByte a k := by
  have hmem : (k.val, readByte a k) ∈ memoryCells b := h ▸ mem_memoryCells.2 ⟨rfl, hne⟩
  exact (mem_memoryCells.1 hmem).1

theorem memoryCells_injective : Function.Injective memoryCells := by
  refine fun a b h => lanes_ext_bytes fun k => ?_
  by_cases ha : readByte a k = 0
  · by_contra hab
    have hb : readByte b k ≠ 0 := fun hb => hab (ha.trans hb.symm)
    exact hab (readByte_eq_of_memoryCells_eq h.symm hb)
  · exact (readByte_eq_of_memoryCells_eq h ha).symm

/-- Settles O38: equal listings give equal bytes, and equal bytes equal lanes. -/
theorem byteSpaceDeterminesTheLanes : Obligations.ByteSpaceDeterminesTheLanes :=
  ⟨fun _ _ => lanes_ext_bytes, fun _ _ h => memoryCells_injective h⟩

section addresses
variable {s : State} {j k : Addr}

theorem cursorAddr_ne_of_le {n : Nat} (hk : cursorAddr s n = some k) (hj : n ≤ j.val) : k ≠ j := by
  obtain ⟨hval, hlt⟩ := cursorAddr_eq_some.1 hk
  rintro rfl
  omega

theorem padAddr_ne_of_le {v : Variant} (hj : (lut v).rateBytes ≤ j.val) : padAddr v ≠ j := by
  rintro rfl
  have hrate := lut_bounds v
  rw [padAddr_val] at hj
  omega

/-- The padding changes its two bytes and no other (rule R144). -/
theorem readByte_padState_ne {v : Variant} (a : Lanes) (hk : k ≠ j) (hp : padAddr v ≠ j) :
    readByte (padState v k a) j = readByte a j := by
  rw [padState, readByte_xorByte_ne _ _ hp.symm, readByte_xorByte_ne _ _ hk.symm]

/-- An ABSORB that fills no block XORs its byte in at the address `cursor` and moves on (rule R142). -/
theorem absorb_next_of_unfilled {t : State} {b : Byte} (hf : s.fault = false) (hp : s.phase = .absorb)
    (hc : s.cursor.toNat + 1 ≠ (lut s.variant).rateBytes) (h : exec (.absorb b) s = .next t) :
    ∃ k, cursorAddr s (lut s.variant).rateBytes = some k ∧
      t = putBlock (xorByte s.lanes k b) (s.cursor + 1) (quiet s) := by
  rw [exec_absorb] at h
  cases hk : cursorAddr s (lut s.variant).rateBytes with
  | none => rw [execAbsorb_out_of_range hf hp hk] at h; cases h
  | some k =>
    rw [execAbsorb_partial hf hp hk hc] at h
    cases h
    exact ⟨k, rfl, rfl⟩

end addresses

/-- Settles O27: `cursor` is below its bound and `rate - 1` is below `rate`, so no XOR reaches byte `j`. -/
theorem capacityRegionIsNeverAddressed : Obligations.CapacityRegionIsNeverAddressed := by
  intro s j hj
  have hout := lut_bounds s.variant
  have hrate {k : Addr} (hk : cursorAddr s (lut s.variant).rateBytes = some k) : k ≠ j := cursorAddr_ne_of_le hk hj
  have hpad : padAddr s.variant ≠ j := padAddr_ne_of_le hj
  refine ⟨fun k => hrate, fun k hk => ?squeezed, hpad, fun b t hf hp hc h => ?absorbed, fun k hk => ?padded⟩
  case squeezed => exact cursorAddr_ne_of_le hk (by rw [lutRead]; omega)
  case absorbed =>
    obtain ⟨k, hk, rfl⟩ := absorb_next_of_unfilled hf hp hc h
    exact readByte_xorByte_ne s.lanes b (hrate hk).symm
  case padded => exact readByte_padState_ne s.lanes (hrate hk) hpad

end Sys2Proof.Proofs.ByteSpace
end

section
/-! Rules R84, R87 and R88: the decoder and the encoder are inverse to each other, the rows of the opcode table select
the words of their commands, and how many words are legal. -/

namespace Sys2Proof.Proofs.Encoding

open Sys2Proof Sys2Proof.Machine
open Sys2Proof.Proofs.Registers (encode_of_decode)

section fields
variable {w : CmdWord} {op var : BitVec 2} {data : Byte}

/-- A word is known from its three fields (rule R80). -/
theorem assembleWord_eq_iff :
    assembleWord op var data = w ↔ opField w = op ∧ varField w = var ∧ dataField w = data := by
  constructor
  · rintro rfl
    simp
  · rintro ⟨rfl, rfl, rfl⟩
    exact assembleWord_fields w

/-- A mask and a match are compared field by field. -/
theorem and_eq_assembleWord_iff {opMask varMask : BitVec 2} {dataMask : Byte} :
    w &&& assembleWord opMask varMask dataMask = assembleWord op var data ↔
      opField w &&& opMask = op ∧ varField w &&& varMask = var ∧ dataField w &&& dataMask = data := by
  have hop : opField (w &&& assembleWord opMask varMask dataMask) = opField w &&& opMask := by
    rw [opField, BitVec.extractLsb'_and, ← opField, ← opField, opField_assembleWord]
  have hvar : varField (w &&& assembleWord opMask varMask dataMask) = varField w &&& varMask := by
    rw [varField, BitVec.extractLsb'_and, ← varField, ← varField, varField_assembleWord]
  have hdata : dataField (w &&& assembleWord opMask varMask dataMask) = dataField w &&& dataMask := by
    rw [dataField, BitVec.extractLsb'_and, ← dataField, ← dataField, dataField_assembleWord]
  rw [eq_comm, assembleWord_eq_iff, hop, hvar, hdata]

end fields

@[simp] theorem decode_encode (i : Instr) : decode (encode i) = .ok i := by
  cases i with
  | init v => rw [encode, decode_op0, if_pos rfl, variantOfCode_variantCode]
  | absorb b => rw [encode, decode_op1, if_pos rfl]
  | finalize => rw [encode, decode_op2, if_pos ⟨rfl, rfl⟩]
  | squeeze => rw [encode, decode_op3, if_pos ⟨rfl, rfl⟩]

theorem decode_eq_ok_iff {w : CmdWord} {i : Instr} : decode w = .ok i ↔ encode i = w :=
  ⟨encode_of_decode, fun h => h ▸ decode_encode i⟩

/-- Settles O1: the encoder's word decodes to its command, and the decoder accepts no other word for it. -/
theorem decodeInvertsEncode : Obligations.DecodeInvertsEncode := fun _ _ => decode_eq_ok_iff

theorem encode_injective : Function.Injective encode := fun i j h =>
  Except.ok.inj (by rw [← decode_encode i, h, decode_encode])

/-! ### The rows of the opcode table by match and mask -/

section masks
variable (w : CmdWord)

theorem and_ones2 (x : BitVec 2) : x &&& 0b11#2 = x := BitVec.and_allOnes

theorem and_ones8 (x : Byte) : x &&& 0xFF#8 = x := BitVec.and_allOnes

/-- INIT fixes `op` and `data`. -/
theorem initMask_iff : w &&& 0xCFF = 0x000 ↔ decode w = .ok (.init (variantOfCode (varField w))) := by
  rw [decode_eq_ok_iff, encode, variantCode_variantOfCode, assembleWord_eq_iff]
  refine (and_eq_assembleWord_iff (opMask := 0b11) (varMask := 0b00) (dataMask := 0xFF)
    (op := 0b00) (var := 0b00) (data := 0x00)).trans ?_
  simp [and_ones2, and_ones8]

/-- ABSORB fixes `op` and `var`. -/
theorem absorbMask_iff : w &&& 0xF00 = 0x400 ↔ decode w = .ok (.absorb (dataField w)) := by
  rw [decode_eq_ok_iff, encode, assembleWord_eq_iff]
  refine (and_eq_assembleWord_iff (opMask := 0b11) (varMask := 0b11) (dataMask := 0x00)
    (op := 0b01) (var := 0b00) (data := 0x00)).trans ?_
  simp [and_ones2]

/-- The mask of a command without operand keeps the whole word. -/
theorem and_ones12 : w &&& 0xFFF = w := BitVec.and_allOnes

theorem finalizeMask_iff : w &&& 0xFFF = 0x800 ↔ decode w = .ok .finalize := by
  rw [and_ones12, decode_eq_ok_iff, eq_comm]
  rfl

theorem squeezeMask_iff : w &&& 0xFFF = 0xC00 ↔ decode w = .ok .squeeze := by
  rw [and_ones12, decode_eq_ok_iff, eq_comm]
  rfl

end masks

theorem selects_iff {r : OpcodeRow} {w : CmdWord} : r.selects w = true ↔ w &&& r.mask = r.matchBits := by
  rw [OpcodeRow.selects, beq_iff_eq]

/-- The four rows are the rows of the commands. -/
theorem mem_opcodeRows_iff {r : OpcodeRow} : r ∈ opcodeRows ↔ ∃ i : Instr, i.row = r := by
  constructor
  · intro hr
    simp only [opcodeRows, List.mem_cons, List.not_mem_nil, or_false] at hr
    obtain rfl | rfl | rfl | rfl := hr
    · exact ⟨.init .sha3_224, rfl⟩
    · exact ⟨.absorb 0, rfl⟩
    · exact ⟨.finalize, rfl⟩
    · exact ⟨.squeeze, rfl⟩
  · rintro ⟨i, rfl⟩
    cases i <;> simp [opcodeRows, Instr.row]

theorem row_mem_opcodeRows (i : Instr) : i.row ∈ opcodeRows := mem_opcodeRows_iff.2 ⟨i, rfl⟩

/-- Of the four rows, a command's word selects the command's own and no other. -/
theorem selects_encode_iff {r : OpcodeRow} (hr : r ∈ opcodeRows) {i : Instr} :
    r.selects (encode i) = true ↔ i.row = r := by
  have hfilter : opcodeRows.filter (fun r => r.selects (encode i)) = [i.row] := by
    cases i with
    | init v => exact Laws.RowSelects.init v
    | absorb b => exact Laws.RowSelects.absorb b
    | finalize => exact Laws.RowSelects.finalize
    | squeeze => exact Laws.RowSelects.squeeze
  have hmem : r ∈ opcodeRows.filter (fun r => r.selects (encode i)) ↔ r = i.row := by
    rw [hfilter, List.mem_singleton]
  rw [List.mem_filter, and_iff_right hr] at hmem
  exact hmem.trans eq_comm

/-- A word that selects a row is a command's word: the row's format leaves only the operand free. -/
theorem exists_encode_of_selects {r : OpcodeRow} (hr : r ∈ opcodeRows) {w : CmdWord} (h : r.selects w = true) :
    ∃ i, encode i = w := by
  obtain ⟨i, rfl⟩ := mem_opcodeRows_iff.1 hr
  rw [selects_iff] at h
  cases i with
  | init _ => exact ⟨_, encode_of_decode ((initMask_iff w).1 h)⟩
  | absorb _ => exact ⟨_, encode_of_decode ((absorbMask_iff w).1 h)⟩
  | finalize => exact ⟨_, encode_of_decode ((finalizeMask_iff w).1 h)⟩
  | squeeze => exact ⟨_, encode_of_decode ((squeezeMask_iff w).1 h)⟩

/-- A row selects the words of its commands. -/
theorem selects_iff_exists_encode {r : OpcodeRow} (hr : r ∈ opcodeRows) {w : CmdWord} :
    r.selects w = true ↔ ∃ i : Instr, i.row = r ∧ encode i = w := by
  constructor
  · intro h
    obtain ⟨i, rfl⟩ := exists_encode_of_selects hr h
    exact ⟨i, (selects_encode_iff hr).1 h, rfl⟩
  · rintro ⟨i, hrow, rfl⟩
    exact (selects_encode_iff hr).2 hrow

/-- No word selects two rows (rule R84): it is one command's word, and selects that command's row. -/
theorem row_eq_of_selects {r r' : OpcodeRow} (hr : r ∈ opcodeRows) (hr' : r' ∈ opcodeRows) {w : CmdWord}
    (h : r.selects w = true) (h' : r'.selects w = true) : r = r' := by
  obtain ⟨i, rfl⟩ := exists_encode_of_selects hr h
  exact ((selects_encode_iff hr).1 h).symm.trans ((selects_encode_iff hr').1 h')

/-! ### The number of legal words -/

/-- As many words as operands: the encoder gives every command a word of its own. -/
theorem card_words {α : Type} {f : α → Instr} (hf : Function.Injective f) {p : CmdWord → Prop}
    (hp : ∀ w, p w ↔ ∃ a, encode (f a) = w) : Nat.card { w // p w } = Nat.card α := by
  have hset : p = (· ∈ Set.range (encode ∘ f)) := funext fun w => propext (hp w)
  rw [hset]
  exact Nat.card_range_of_injective (encode_injective.comp hf)

theorem card_selected {α : Type} {f : α → Instr} (hf : Function.Injective f) {r : OpcodeRow} (hr : r ∈ opcodeRows)
    (hrow : ∀ i : Instr, i.row = r ↔ ∃ a, f a = i) :
    Nat.card { w : CmdWord // r.selects w = true } = Nat.card α := by
  refine card_words hf fun w => (selects_iff_exists_encode hr).trans ?_
  simp [hrow]

theorem card_bitVec (n : Nat) : Nat.card (BitVec n) = 2 ^ n := by
  rw [Nat.card_congr BitVec.equivFin.toEquiv, Nat.card_fin]

/-- The four variants and their codes (rule R27). -/
def variantEquivCode : Variant ≃ BitVec 2 :=
  ⟨variantCode, variantOfCode, variantOfCode_variantCode, variantCode_variantOfCode⟩

theorem card_variant : Nat.card Variant = 4 := by
  rw [Nat.card_congr variantEquivCode, card_bitVec]
  rfl

/-- A command is a variant, a byte, or one of the two commands without operand (rule R86). -/
def instrEquivOperands : Instr ≃ (Variant ⊕ Byte) ⊕ Bool where
  toFun
    | .init v => .inl (.inl v)
    | .absorb b => .inl (.inr b)
    | .finalize => .inr false
    | .squeeze => .inr true
  invFun
    | .inl (.inl v) => .init v
    | .inl (.inr b) => .absorb b
    | .inr false => .finalize
    | .inr true => .squeeze
  left_inv i := by cases i <;> rfl
  right_inv := by rintro ((v | b) | (_ | _)) <;> rfl

theorem card_instr : Nat.card Instr = 262 := by
  have : Finite Variant := .of_equiv _ variantEquivCode.symm
  rw [Nat.card_congr instrEquivOperands, Nat.card_sum, Nat.card_sum, card_variant, card_bitVec,
    Nat.card_eq_fintype_card, Fintype.card_bool]
  rfl

theorem card_legalWords : Nat.card { w : CmdWord // ∃ i, decode w = .ok i } = 262 :=
  (card_words Function.injective_id fun _ => exists_congr fun _ => decode_eq_ok_iff).trans card_instr

theorem card_rows : opcodeRows.map (fun r => Nat.card { w : CmdWord // r.selects w = true }) = [4, 256, 1, 1] := by
  have hinit := card_selected (f := .init) (fun _ _ => Instr.init.inj) (row_mem_opcodeRows (.init .sha3_224))
    fun i => by cases i <;> simp [Instr.row]
  have habsorb := card_selected (f := .absorb) (fun _ _ => Instr.absorb.inj) (row_mem_opcodeRows (.absorb 0))
    fun i => by cases i <;> simp [Instr.row]
  have hfinalize := card_selected (f := fun _ : Unit => .finalize) (fun _ _ _ => rfl)
    (row_mem_opcodeRows .finalize) fun i => by cases i <;> simp [Instr.row]
  have hsqueeze := card_selected (f := fun _ : Unit => .squeeze) (fun _ _ _ => rfl)
    (row_mem_opcodeRows .squeeze) fun i => by cases i <;> simp [Instr.row]
  have hunit : Nat.card Unit = 1 := Nat.card_unique
  exact congrArg₂ List.cons (hinit.trans card_variant) (congrArg₂ List.cons (habsorb.trans (card_bitVec 8))
    (congrArg₂ List.cons (hfinalize.trans hunit) (congrArg₂ List.cons (hsqueeze.trans hunit) rfl)))

/-- Settles O3: format by format, a mask fixes the fields that the command's word has fixed. -/
theorem formatsAreThoseOfTheRule : Obligations.FormatsAreThoseOfTheRule :=
  ⟨initMask_iff, absorbMask_iff, finalizeMask_iff, squeezeMask_iff, fun _ => rfl, fun _ => rfl, rfl, rfl,
    fun _ _ hr _ hr' => row_eq_of_selects hr hr', card_rows, card_legalWords⟩

/-! ### The illegal words -/

theorem decode_error_iff {w : CmdWord} : (∃ e, decode w = .error e) ↔ ¬ ∃ i, decode w = .ok i := by
  cases decode w <;> simp

theorem exists_error_ite_iff {c : Prop} [Decidable c] {i : Instr} {e : IllegalWord} :
    (∃ e', (if c then .ok i else .error e : Except IllegalWord Instr) = .error e') ↔ ¬ c := by
  by_cases hc : c <;> simp [hc]

/-- Rule R87, one case for each value of `op`. -/
theorem decode_error_iff_reserved (w : CmdWord) : (∃ e, decode w = .error e) ↔
    (opField w = 0b00 ∧ dataField w ≠ 0x00) ∨
    (opField w = 0b01 ∧ varField w ≠ 0b00) ∨
    ((opField w = 0b10 ∨ opField w = 0b11) ∧ (varField w ≠ 0b00 ∨ dataField w ≠ 0x00)) := by
  have hop : ∀ op : BitVec 2, op = 0 ∨ op = 1 ∨ op = 2 ∨ op = 3 := by decide
  revert w
  refine forall_word fun op var data => ?_
  rw [opField_assembleWord, varField_assembleWord, dataField_assembleWord]
  obtain rfl | rfl | rfl | rfl := hop op
  · rw [decode_op0, exists_error_ite_iff]
    simp
  · rw [decode_op1, exists_error_ite_iff]
    simp
  · rw [decode_op2, exists_error_ite_iff, not_and_or]
    simp
  · rw [decode_op3, exists_error_ite_iff, not_and_or]
    simp

/-- A word is illegal when it is no command's, and then it selects no row. -/
theorem decode_error_iff_selects_none (w : CmdWord) :
    (∃ e, decode w = .error e) ↔ ∀ r ∈ opcodeRows, r.selects w = false := by
  simp only [decode_error_iff, decode_eq_ok_iff, not_exists]
  constructor
  · intro h r hr
    refine Bool.eq_false_iff.2 fun hsel => ?_
    obtain ⟨i, hi⟩ := exists_encode_of_selects hr hsel
    exact h i hi
  · rintro h i rfl
    exact Bool.eq_false_iff.1 (h _ (row_mem_opcodeRows i)) ((selects_encode_iff (row_mem_opcodeRows i)).2 rfl)

/-- The illegal words are the rest of the 4096. -/
theorem card_illegalWords : Nat.card { w : CmdWord // ∃ e, decode w = .error e } = 3834 := by
  have hrest : { w : CmdWord | ∃ e, decode w = .error e } = { w | ∃ i, decode w = .ok i }ᶜ :=
    Set.ext fun _ => decode_error_iff
  have hlegal : Set.ncard { w : CmdWord | ∃ i, decode w = .ok i } = 262 := card_legalWords
  have hsum : Nat.card CmdWord = 3834 + Set.ncard { w : CmdWord | ∃ i, decode w = .ok i } := by
    rw [hlegal, card_bitVec]
    rfl
  exact (congrArg Set.ncard hrest).trans (Set.ncard_compl_of_ncard_eq_add _ hsum)

/-- Settles O2: the reserved fields are read off the decoder, the count is what the legal words leave, and fault entry
writes nothing but `fault` and `cause`. -/
theorem illegalWordsAreThoseOfTheRule : Obligations.IllegalWordsAreThoseOfTheRule := by
  refine ⟨decode_error_iff_reserved, decode_error_iff_selects_none, card_illegalWords, fun w e s hd hf => ?_⟩
  rw [issueWord_of_illegal hd, hf]
  rfl

/-- Settles O4: one word of each command and one of each illegal kind, decoded. -/
theorem sampleWordsDecode : Obligations.SampleWordsDecode :=
  ⟨rfl, rfl, rfl, rfl, rfl, rfl, rfl, rfl, rfl⟩

end Sys2Proof.Proofs.Encoding
end

section
/-! Rule R92: the command a step runs, and the one command that responds. -/

namespace Sys2Proof.Proofs.Channel

open Sys2Proof Sys2Proof.Machine
open Sys2Proof.Proofs.Registers (encode_of_decode execCase_no_response)
open Sys2Proof.Proofs.Encoding (decode_encode)

theorem step_of_issue {s : State} {w : CmdWord} {rest : List HostEvent} (h : s.inputs = .issue w :: rest) :
    step s = issueWord w (takeInput rest s) := by
  rw [step, channelStep, h]
  rfl

/-- A command word as a number is itself on the 12 wires. -/
theorem tableWord_toNat (w : CmdWord) : tableWord 16 w.toNat = w := by
  have hw : w.toNat % 2 ^ 16 = w.toNat := Nat.mod_eq_of_lt (by omega)
  rw [tableWord, hw, BitVec.ofNat_toNat, BitVec.setWidth_eq]

/-- A word put in front of the host's list is issued at the state that stood before. -/
theorem step_withFetchWord (s : State) (w : CmdWord) : step (s.withFetchWord 16 w.toNat) = issueWord w s := by
  rw [State.withFetchWord, tableWord_toNat]
  exact step_of_issue rfl

/-- Settles O5: an issued word runs the command it decodes to, and the encoder's word decodes to its command. -/
theorem stepRunsTheIssuedCommand : Obligations.StepRunsTheIssuedCommand := by
  refine ⟨fun s w rest i hin hd => ?issued, fun s i => ?placed⟩
  case issued => exact (step_of_issue hin).trans (issueWord_of_legal hd _)
  case placed => rw [step_withFetchWord, issueWord_of_legal (decode_encode i)]

/-- A SQUEEZE delivers the byte at `cursor`, or it faults or is discarded and delivers nothing (rule R145). -/
theorem squeezeCase_response {s t : State} (h : ExecCase s .squeeze t) :
    (t.rsp = none ∧ t.received = s.received) ∨
    ∃ k, s.fault = false ∧ s.phase = .squeeze ∧ cursorAddr s (lut s.variant).outputBytes = some k ∧
      t = advanceCursor (respond (readByte s.lanes k) (quiet s)) := by
  cases h with
  | squeezed hf hp hk => exact .inr ⟨_, hf, hp, hk, rfl⟩
  | _ => exact .inl ⟨rfl, rfl⟩

/-- Settles O12: no event but an issued command responds, of the commands only SQUEEZE does, and of its cases only the
one that reads a byte. -/
theorem onlyASuccessfulSqueezeResponds : Obligations.OnlyASuccessfulSqueezeResponds := by
  intro s t hstep
  cases step_cases hstep with
  | idle _ => exact .inl ⟨rfl, rfl⟩
  | waited _ => exact .inl ⟨rfl, rfl⟩
  | resetEvent _ _ => exact .inl ⟨rfl, rfl⟩
  | illegal _ _ => left; split <;> exact ⟨rfl, rfl⟩
  | @command _ i rest _ hin hd hx =>
    by_cases hi : i = .squeeze
    · subst hi
      obtain hnone | ⟨k, hf, hp, hk, rfl⟩ := squeezeCase_response hx
      · exact .inl hnone
      · obtain ⟨hval, hlt⟩ := cursorAddr_eq_some.1 hk
        exact .inr ⟨k, rest, by rw [hin, encode_of_decode hd], hp, hf, hf, hval, by rw [hval]; exact hlt, rfl, rfl⟩
    · exact .inl (execCase_no_response hx hi).symm

end Sys2Proof.Proofs.Channel
end

section
/-! Rules R90 and R91: when a line of the assembler syntax stands for commands, and for which. -/

namespace Sys2Proof.Proofs.Assembler

open Sys2Proof Sys2Proof.Machine

/-! ### Operands -/

theorem isSome_asmVariant (v : AsmVariant) : (asmVariant v).isSome = v.wf := by
  cases v with
  | code n => rw [asmVariant, AsmVariant.wf, Bool.eq_iff_iff, Option.isSome_ite, decide_eq_true_iff]
  | name v => rfl

theorem isSome_asmByte (b : AsmByte) : (asmByte b).isSome = b.wf := by
  cases b with
  | number n => rw [asmByte, AsmByte.wf, Bool.eq_iff_iff, Option.isSome_ite, decide_eq_true_iff]
  | char c => rw [asmByte, AsmByte.wf, Bool.eq_iff_iff, Option.isSome_ite, decide_eq_true_iff]

/-- A list of bytes is read when each of them is. -/
theorem isSome_mapM_asmByte (bs : List AsmByte) : (bs.mapM asmByte).isSome = bs.all AsmByte.wf := by
  induction bs with
  | nil => rfl
  | cons b bs ih =>
    rw [List.mapM_cons, List.all_cons, ← isSome_asmByte, ← ih]
    cases asmByte b <;> cases bs.mapM asmByte <;> rfl

/-- Settles O53: an operand is read exactly when it is well-formed, and nothing else can fail. -/
theorem wellFormedLinesExpand : Obligations.WellFormedLinesExpand := by
  intro active l
  cases l with
  | init v => rw [expandLine, Option.isSome_map, isSome_asmVariant, AsmLine.wf]
  | absorb b => rw [expandLine, Option.isSome_map, isSome_asmByte, AsmLine.wf]
  | finalize => rfl
  | squeeze => rfl
  | newContext v => rfl
  | absorbBytes bs => rw [expandLine, Option.isSome_map, isSome_mapM_asmByte, AsmLine.wf]
  | finalizeAndSqueeze => rfl
  | hash v bs =>
    rw [expandLine, AsmLine.wf, ← isSome_asmVariant, ← isSome_mapM_asmByte]
    cases asmVariant v <;> simp

/-! ### Expansions -/

theorem asmByte_toNat (b : Byte) : asmByte (.number b.toNat) = some b := by
  rw [asmByte, if_pos b.isLt, BitVec.ofNat_toNat, BitVec.setWidth_eq]

/-- Bytes written as numbers are read as themselves. -/
theorem mapM_asmByte_toNat (bs : List Byte) : (bs.map fun b => AsmByte.number b.toNat).mapM asmByte = some bs := by
  induction bs with
  | nil => rfl
  | cons b bs ih => rw [List.map_cons, List.mapM_cons, asmByte_toNat, ih]; rfl

/-- Settles O52: once the bytes are read, each expansion is the model's program for it. -/
theorem pseudoCommandsExpand : Obligations.PseudoCommandsExpand := by
  refine ⟨fun _ _ => rfl, fun _ bs => ?absorbs, fun _ => rfl, fun _ v bs => ?hash⟩
  case absorbs => rw [expandLine, mapM_asmByte_toNat]; rfl
  case hash => rw [expandLine, mapM_asmByte_toNat]; rfl

end Sys2Proof.Proofs.Assembler
end

section
/-! Rules R112 to R122: the four steps of a round lane by lane, the constant tables, and the order of the rounds. -/

namespace Sys2Proof.Proofs.Permutation

open Sys2Proof Sys2Proof.Machine

/-! ### The order of the rounds -/

/-- A fold over `0 .. n-1` ends in the last state of any sequence that starts at its input and takes its steps. -/
theorem foldl_finRange_eq_last {α : Type} {n : Nat} (f : Fin n → α → α) (st : Nat → α)
    (hstep : ∀ i : Fin n, st (i.val + 1) = f i (st i.val)) :
    (List.finRange n).foldl (fun s i => f i s) (st 0) = st n := by
  rw [← Fin.foldl_eq_foldl_finRange]
  induction n with
  | zero => exact Fin.foldl_zero ..
  | succ n ih =>
    have hbefore := ih (fun i => f i.castSucc) fun i => hstep i.castSucc
    rw [Fin.foldl_succ_last, hbefore]
    exact (hstep (Fin.last n)).symm

/-- Settles O44: a round is defined as the four steps, and PERMUTE as the fold of the rounds. -/
theorem permuteRunsTheRoundsInOrder : Obligations.PermuteRunsTheRoundsInOrder := by
  refine ⟨fun _ _ => rfl, ?order⟩
  rintro _ st rfl hround
  exact foldl_finRange_eq_last keccakRound st hround

/-! ### The constant tables -/

theorem rot_by_flat_index :
    ((List.finRange 25).map fun i => rot (Fin.ofNat 5 i.val) (Fin.ofNat 5 (i.val / 5))) =
      [0, 1, 62, 28, 27, 36, 44, 6, 55, 20, 3, 10, 43, 25, 39, 41, 45, 15, 21, 8, 18, 2, 61, 56, 14] := by decide

/-- No round constant has a bit other than 0, 1, 3, 7, 15, 31 and 63. -/
theorem rc_and_not_mask (i : Fin 24) : rc i &&& ~~~0x800000008000808B = 0 := by
  revert i; decide

/-- Settles O35: the tables are read at the places named. -/
theorem rotationAndRoundConstants : Obligations.RotationAndRoundConstants :=
  ⟨rot_by_flat_index, rfl, rfl, rfl, rfl, rfl, rfl, rc_and_not_mask⟩

/-! ### THETA -/

@[simp] theorem thetaC_get (a : Lanes) (x : Fin 5) :
    (thetaC a).get x = a.at x 0 ^^^ a.at x 1 ^^^ a.at x 2 ^^^ a.at x 3 ^^^ a.at x 4 := Five.get_ofFn _ x

@[simp] theorem thetaD_get (a : Lanes) (x : Fin 5) :
    (thetaD a).get x = (thetaC a).get (x + 4) ^^^ rol64 ((thetaC a).get (x + 1)) 1 := Five.get_ofFn _ x

@[simp] theorem theta_at (a : Lanes) (x y : Fin 5) : (theta a).at x y = a.at x y ^^^ (thetaD a).get x :=
  Lanes.at_of _ x y

@[simp] theorem rol64_of_zero (n : Nat) : rol64 0#64 n = 0#64 := by simp [rol64]

theorem theta_zero : theta Lanes.zero = Lanes.zero := Lanes.ext_at fun x y => by simp

/-- Settles O40: the model's own C and D are the ones the rule defines. -/
theorem thetaByItsRule : Obligations.ThetaByItsRule := by
  refine ⟨fun a c d hc hd x y => ?lane, theta_zero⟩
  rw [theta_at, thetaD_get, hd, hc, hc, thetaC_get, thetaC_get]

/-! ### RHOPI -/

@[simp] theorem rhopi_at (a : Lanes) (X Y : Fin 5) :
    (rhopi a).at X Y = rol64 (a.at (X + 3 * Y) X) (rot (X + 3 * Y) X) := Lanes.at_of _ X Y

/-- Mod 5, the position `(y, 2x + 3y)` comes from column `y + 3(2x + 3y) = 6x + 10y = x`. -/
theorem source_of_target (x y : Fin 5) : y + 3 * (2 * x + 3 * y) = x := by
  revert x y; decide

/-- Mod 5, the position `(X + 3Y, X)` goes to row `2(X + 3Y) + 3X = 5X + 6Y = Y`. -/
theorem target_of_source (X Y : Fin 5) : 2 * (X + 3 * Y) + 3 * X = Y := by
  revert X Y; decide

theorem rhopi_at_target (a : Lanes) (x y : Fin 5) :
    (rhopi a).at y (2 * x + 3 * y) = rol64 (a.at x y) (rot x y) := by
  rw [rhopi_at, source_of_target]

theorem target_bijective : Function.Bijective (fun p : Fin 5 × Fin 5 => (p.2, 2 * p.1 + 3 * p.2)) :=
  Function.bijective_iff_has_inverse.2 ⟨fun q => (q.1 + 3 * q.2, q.1),
    fun p => Prod.ext (source_of_target p.1 p.2) rfl, fun q => Prod.ext rfl (target_of_source q.1 q.2)⟩

theorem target_eq_self_iff (p : Fin 5 × Fin 5) : (p.2, 2 * p.1 + 3 * p.2) = p ↔ p = (0, 0) := by
  revert p; decide

theorem rot_bounds (x y : Fin 5) (h : (x, y) ≠ (0, 0)) : 1 ≤ rot x y ∧ rot x y ≤ 62 := by
  revert x y; decide

theorem rot_injective (x y x' y' : Fin 5) (h : rot x y = rot x' y') : (x, y) = (x', y') := by
  revert x y x' y'; decide

theorem rhopi_zero : rhopi Lanes.zero = Lanes.zero := Lanes.ext_at fun x y => by simp

/-- Settles O41: the destination-by-destination definition, read from the source's side. -/
theorem rhoPiByItsRule : Obligations.RhoPiByItsRule :=
  ⟨rhopi_at_target, target_bijective, target_eq_self_iff, rot_bounds, rot_injective, rhopi_zero⟩

/-! ### CHI -/

@[simp] theorem chi_at (b : Lanes) (x y : Fin 5) :
    (chi b).at x y = b.at x y ^^^ (~~~(b.at (x + 1) y) &&& b.at (x + 2) y) := Lanes.at_of _ x y

/-- A row of five equal lanes stays: chi changes a lane by `~v & v`, which is zero. -/
theorem chi_at_of_const_row {b : Lanes} {y : Fin 5} {v : Lane} (hrow : ∀ x, b.at x y = v) (x : Fin 5) :
    (chi b).at x y = v := by
  rw [chi_at, hrow, hrow, hrow, BitVec.not_and_self]
  exact BitVec.xor_zero

/-- Settles O42: the all-zero and the all-ones row are constant rows. -/
theorem chiByItsRule : Obligations.ChiByItsRule :=
  ⟨chi_at, fun _ _ => chi_at_of_const_row, fun _ _ => chi_at_of_const_row⟩

/-! ### IOTA -/

theorem iota_at_zero (i : Fin 24) (a : Lanes) : (iota i a).at 0 0 = a.at 0 0 ^^^ rc i := Lanes.at_put_self a 0 0 _

theorem iota_at_ne (i : Fin 24) (a : Lanes) {x y : Fin 5} (h : (x, y) ≠ (0, 0)) : (iota i a).at x y = a.at x y :=
  Lanes.at_put_ne a _ (by rw [ne_eq, Prod.mk.injEq] at h; tauto)

/-- XORing the same constant into lane (0, 0) twice restores it; no other lane is written. -/
theorem iota_iota (i : Fin 24) (a : Lanes) : iota i (iota i a) = a := by
  refine Lanes.ext_at fun x y => ?_
  by_cases h : (x, y) = (0, 0)
  · obtain ⟨rfl, rfl⟩ := Prod.mk.inj h
    rw [iota_at_zero, iota_at_zero, BitVec.xor_assoc, BitVec.xor_self, BitVec.xor_zero]
  · rw [iota_at_ne i _ h, iota_at_ne i a h]

/-- Settles O43: one lane is written, by an XOR. -/
theorem iotaByItsRule : Obligations.IotaByItsRule :=
  fun a i => ⟨iota_at_zero i a, fun _ _ => iota_at_ne i a, iota_iota i a⟩

/-! ### The reference check -/

/-- Settles O45: the kernel runs the 24 rounds on the zero state. -/
theorem permuteOfZeroIsTheReference : Obligations.PermuteOfZeroIsTheReference := by
  unfold Obligations.PermuteOfZeroIsTheReference
  decide +kernel

end Sys2Proof.Proofs.Permutation
end

section
/-! Rules R140 to R145 and R154: the prologue, and each command by its rule with its frame. The next states are the
model's named updates, which are the record updates of the statements by definition. -/

namespace Sys2Proof.Proofs.CommandRules

open Sys2Proof Sys2Proof.Machine
open Sys2Proof.Proofs.Channel (step_of_issue)
open Sys2Proof.Proofs.Invariant (toNat_cursor_succ)

/-! ### The prologue and waiting -/

/-- While `fault` is 1 a word is discarded, legal or not (rule R187). -/
theorem issueWord_of_fault {s : State} (h : s.fault = true) (w : CmdWord) : issueWord w s = .next (quiet s) := by
  cases hd : decode w with
  | ok i => rw [issueWord_of_legal hd, exec_of_fault h]
  | error e => rw [issueWord_of_illegal hd, if_pos h]

theorem issueWord_of_illegal_no_fault {w : CmdWord} {e : IllegalWord} {s : State} (hd : decode w = .error e)
    (h : s.fault = false) : issueWord w s = .next (enterFault .illegalEncoding s) := by
  rw [issueWord_of_illegal hd, h]
  rfl

/-- Settles O6: a step is the word's handling with the event taken off the list, in its three cases. -/
theorem prologueOfAnIssuedWord : Obligations.PrologueOfAnIssuedWord := by
  intro s w rest hin
  rw [step_of_issue hin]
  exact ⟨fun hf => issueWord_of_fault (by exact hf) w, fun hf e hd => issueWord_of_illegal_no_fault hd hf,
    fun _ i hd => issueWord_of_legal hd _⟩

theorem step_of_no_event {s : State} (h : s.inputs = []) : step s = .next (quiet s) := by
  rw [step, channelStep, h]

theorem step_of_wait {s : State} {rest : List HostEvent} (h : s.inputs = .wait :: rest) :
    step s = .next (quiet (takeInput rest s)) := by
  rw [step, channelStep, h]
  rfl

/-- Settles O11: both events leave the state quiet. -/
theorem stateHoldsWhileTheHostWaits : Obligations.StateHoldsWhileTheHostWaits :=
  ⟨fun _ => step_of_no_event, fun _ _ => step_of_wait⟩

/-! ### INIT -/

/-- Settles O14: `construct` writes every register that a computation uses, so nothing before it shows. -/
theorem initByItsRule : Obligations.InitByItsRule := by
  refine fun v => ⟨rfl, fun s => ⟨fun hf => exec_of_fault hf _, fun hf => ⟨execInit_eq hf v, ?again, ?fresh⟩⟩⟩
  case again =>
    intro u t ht
    rw [exec_init, execInit_eq hf] at ht
    cases ht
    rw [exec_init, exec_init, execInit_eq hf, execInit_eq (by exact hf)]
    rfl
  case fresh =>
    intro t r hcause ht hr
    rw [exec_init, execInit_eq hf] at ht
    rw [exec_init, execInit_eq rfl] at hr
    cases ht
    cases hr
    exact ⟨rfl, rfl, rfl, rfl, hf, hcause⟩

/-! ### ABSORB -/

/-- Settles O15: the phase is checked first, then the two ways a block can stand after the byte. -/
theorem absorbByItsRule : Obligations.AbsorbByItsRule := by
  refine fun b => ⟨rfl, xorByte_zero, fun s hf =>
    ⟨fun hp => execAbsorb_wrong_phase hf hp b, fun hp hlt k hk => ?absorbing⟩⟩
  case absorbing =>
    have hk : cursorAddr s (lut s.variant).rateBytes = some k := cursorAddr_eq_some.2 ⟨hk, hlt⟩
    refine ⟨fun hc => execAbsorb_full hf hp hk hc b, fun hc => ⟨execAbsorb_partial hf hp hk hc b, ?_⟩⟩
    have hrate := lut_bounds s.variant
    have hsucc : (s.cursor + 1).toNat = s.cursor.toNat + 1 := toNat_cursor_succ hlt (by omega)
    omega

/-- Settles O24: the lanes with the byte XORed in are the ones that are kept, or permuted when the block is full. -/
theorem absorbStoresOneByte : Obligations.AbsorbStoresOneByte := by
  intro b s t k hf hp hk ht
  rw [lutRead] at hk ⊢
  rw [exec_absorb] at ht
  have hbytes : ∀ j, j ≠ k → readByte (xorByte s.lanes k b) j = readByte s.lanes j :=
    fun _ hj => readByte_xorByte_ne _ _ hj
  by_cases hc : s.cursor.toNat + 1 = (lut s.variant).rateBytes
  · rw [execAbsorb_full hf hp hk hc] at ht
    cases ht
    refine ⟨rfl, rfl, rfl, rfl, rfl, rfl, rfl, _, readByte_xorByte_self _ _ _, hbytes, fun _ => rfl, ?_⟩
    exact fun h => absurd hc h
  · rw [execAbsorb_partial hf hp hk hc] at ht
    cases ht
    refine ⟨rfl, rfl, rfl, rfl, rfl, rfl, rfl, _, readByte_xorByte_self _ _ _, hbytes, ?_, fun _ => rfl⟩
    exact fun h => absurd h hc

/-! ### FINALIZE -/

/-- Where the two bytes of the padding meet, they are one XOR by 0x86 (rule R144). -/
theorem padding_bytes_meet (a : Lanes) (v : Variant) (k : Addr) :
    xorByte (xorByte a k (lut v).domainSeparator) k 0x80 = xorByte a k 0x86 := by
  rw [xorByte_xorByte_self, lut_sep]
  rfl

/-- Settles O16: `rate - 1` is the model's padding address, so the two XORs are `padState`. -/
theorem finalizeByItsRule : Obligations.FinalizeByItsRule := by
  refine ⟨rfl, fun s hf => ⟨execFinalize_wrong_phase hf, fun hp hlt k p hk hpad => ⟨lut_sep _, ?padded, ?meet⟩⟩⟩
  case padded =>
    obtain rfl : p = padAddr s.variant := Fin.ext (hpad.trans (padAddr_val _).symm)
    exact execFinalize_eq hf hp (cursorAddr_eq_some.2 ⟨hk, hlt⟩)
  case meet =>
    rintro rfl
    exact padding_bytes_meet _ _ _

/-- The padding byte by byte (rule R144). -/
theorem readByte_padState (a : Lanes) (v : Variant) (j k : Addr) : readByte (padState v k a) j =
    readByte a j ^^^ (if j = k then 0x06 else 0) ^^^ (if j.val = (lut v).rateBytes - 1 then 0x80 else 0) := by
  have hlast : j = padAddr v ↔ j.val = (lut v).rateBytes - 1 := by rw [Fin.ext_iff, padAddr_val]
  simp only [padState, readByte_xorByte, lut_sep, hlast]

/-- Settles O25: the lanes before the permutation are `padState`, read byte by byte. -/
theorem finalizePadsTwoBytes : Obligations.FinalizePadsTwoBytes := by
  refine ⟨rfl, rfl, fun v => (lut_bounds v).1, fun s t k hf hp hk ht => ?_⟩
  rw [lutRead] at hk ⊢
  rw [exec_finalize, execFinalize_eq hf hp hk] at ht
  cases ht
  obtain ⟨hval, hlt⟩ := cursorAddr_eq_some.1 hk
  refine ⟨rfl, rfl, rfl, rfl, rfl, rfl, rfl, hval ▸ hlt, _, rfl, fun j hj hlast => ?others,
    fun hapart => ⟨?sep, fun j hj => ?last⟩, fun hmeet => ?meet⟩
  case others => simp [readByte_padState, hj, hlast]
  case sep => simp [readByte_padState, hapart]
  case last =>
    have hjk : j ≠ k := by rintro rfl; exact hapart hj
    simp [readByte_padState, hj, hjk]
  case meet => simp [readByte_padState, hmeet, BitVec.xor_assoc]

/-! ### SQUEEZE -/

theorem toNat_cursor_succ_of_lt_output {s : State} (h : s.cursor.toNat < (lut s.variant).outputBytes) :
    (s.cursor + 1).toNat = s.cursor.toNat + 1 :=
  toNat_cursor_succ h (by have := lut_bounds s.variant; omega)

/-- Settles O17: the phase is checked first, then the cursor against `outlen`. -/
theorem squeezeByItsRule : Obligations.SqueezeByItsRule := by
  refine ⟨rfl, fun s hf => ⟨execSqueeze_wrong_phase hf, execSqueeze_overrun hf, fun hp hlt k hk => ⟨?_, ?_⟩⟩⟩
  · exact execSqueeze_eq hf hp (cursorAddr_eq_some.2 ⟨hk, hlt⟩)
  · exact toNat_cursor_succ_of_lt_output hlt

/-- Settles O26: a SQUEEZE without a fault before it enters a fault or returns a byte. -/
theorem squeezeFrame : Obligations.SqueezeFrame := by
  intro s t hf ht
  cases exec_cases ht with
  | discarded h => simp [hf] at h
  | violated _ _ => exact ⟨rfl, rfl, rfl, rfl, nofun, fun _ => ⟨rfl, rfl, rfl⟩⟩
  | overrun _ _ _ => exact ⟨rfl, rfl, rfl, rfl, nofun, fun _ => ⟨rfl, rfl, rfl⟩⟩
  | squeezed _ _ hk =>
    have hsucc := toNat_cursor_succ_of_lt_output (cursorAddr_eq_some.1 hk).2
    exact ⟨rfl, rfl, rfl, rfl, fun _ => ⟨rfl, hsucc, rfl⟩, fun h => by simp [hf] at h⟩

end Sys2Proof.Proofs.CommandRules
end

section
/-! Rules R147, R150 and R151: the ABSORBs of a message, whatever its length and however it is cut. -/

namespace Sys2Proof.Proofs.Absorption

open Sys2Proof Sys2Proof.Machine
open Sys2Proof.Proofs.Invariant (toNat_cursor_succ)

/-- A state in which ABSORB and FINALIZE succeed: phase ABSORB, no fault, and invariant I3 (rule R36). -/
structure Absorbing (s : State) : Prop where
  noFault : s.fault = false
  phase : s.phase = .absorb
  cursor_lt : s.cursor.toNat < (lut s.variant).rateBytes

section commands
variable {s : State}

theorem Absorbing.cursorAddr_eq (h : Absorbing s) :
    cursorAddr s (lut s.variant).rateBytes = some (Fin.ofNat 200 s.cursor.toNat) := by
  have hrate := lut_bounds s.variant
  have hlt := h.cursor_lt
  exact cursorAddr_eq_some.2 ⟨Nat.mod_eq_of_lt (by omega), hlt⟩

/-- An ABSORB counts its byte modulo the rate (rules R142, R151). -/
theorem Absorbing.absorb (h : Absorbing s) (b : Byte) :
    ∃ t, exec (.absorb b) s = .next t ∧ Absorbing t ∧ t.variant = s.variant ∧
      t.cursor.toNat = (s.cursor.toNat + 1) % (lut s.variant).rateBytes := by
  have hrate := lut_bounds s.variant
  by_cases hc : s.cursor.toNat + 1 = (lut s.variant).rateBytes
  · refine ⟨_, execAbsorb_full h.noFault h.phase h.cursorAddr_eq hc b, ⟨h.noFault, h.phase, ?_⟩, rfl, ?_⟩
    · exact (by omega : 0 < (lut s.variant).rateBytes)
    · rw [hc, Nat.mod_self]
      rfl
  · have hlt := h.cursor_lt
    have hsucc : (s.cursor + 1).toNat = s.cursor.toNat + 1 := toNat_cursor_succ hlt (by omega)
    have hroom : s.cursor.toNat + 1 < (lut s.variant).rateBytes := by omega
    refine ⟨_, execAbsorb_partial h.noFault h.phase h.cursorAddr_eq hc b, ⟨h.noFault, h.phase, ?_⟩, rfl, ?_⟩
    · exact hsucc.trans_lt hroom
    · exact hsucc.trans (Nat.mod_eq_of_lt hroom).symm

theorem Absorbing.finalize (h : Absorbing s) :
    exec .finalize s = .next (setPhase .squeeze
      (putBlock (permute (padState s.variant (Fin.ofNat 200 s.cursor.toNat) s.lanes)) 0 (quiet s))) :=
  execFinalize_eq h.noFault h.phase h.cursorAddr_eq

/-- No byte of a message faults, by induction on the message (rules R150, R151). -/
theorem Absorbing.absorbBytes (h : Absorbing s) (m : List Byte) :
    ∃ t, execAll (absorbBytes m) s = .next t ∧ Absorbing t ∧ t.variant = s.variant ∧
      t.cursor.toNat = (s.cursor.toNat + m.length) % (lut s.variant).rateBytes := by
  induction m generalizing s with
  | nil => exact ⟨s, rfl, h, rfl, (Nat.mod_eq_of_lt h.cursor_lt).symm⟩
  | cons b m ih =>
    obtain ⟨t, hb, ht, hvariant, hcursor⟩ := h.absorb b
    obtain ⟨u, hm, hu, hvariant', hcursor'⟩ := ih ht
    refine ⟨u, (execAll_cons_of_next hb _).trans hm, hu, hvariant'.trans hvariant, ?_⟩
    rw [hcursor', hvariant, hcursor, Nat.mod_add_mod, List.length_cons, Nat.add_assoc, Nat.add_comm 1]

end commands

/-- Settles O48: the message leaves a state in which FINALIZE succeeds. -/
theorem everyMessageIsAbsorbed : Obligations.EveryMessageIsAbsorbed := by
  intro m s hf hp hlt
  obtain ⟨t, hm, ht, hvariant, hcursor⟩ := Absorbing.absorbBytes ⟨hf, hp, hlt⟩ m
  exact ⟨t, hm, ht.noFault, ht.phase, hvariant, hcursor, _, ht.finalize, ht.noFault, rfl⟩

theorem absorbBytes_append (a b : List Byte) : absorbBytes (a ++ b) = absorbBytes a ++ absorbBytes b :=
  List.map_append

/-- Bytes written in two lists are read as those of the one list. -/
theorem mapM_asmByte_append (xs ys : List AsmByte) : (xs ++ ys).mapM asmByte =
    (xs.mapM asmByte).bind fun a => (ys.mapM asmByte).map fun b => a ++ b := by
  rw [List.mapM_append]
  cases xs.mapM asmByte <;> cases ys.mapM asmByte <;> rfl

/-- Two ABSORB_BYTES lines in a HASH computation assemble to the one HASH line (rule R91). -/
theorem assemble_absorbBytes_twice (v : Variant) (xs ys : List AsmByte) :
    assemble none [.init (.name v), .absorbBytes xs, .absorbBytes ys, .finalizeAndSqueeze] =
      assemble none [.hash (.name v) (xs ++ ys)] := by
  simp only [assemble, expandLine, activeAfter, asmVariant, mapM_asmByte_append]
  cases xs.mapM asmByte with
  | none => rfl
  | some a =>
    cases ys.mapM asmByte with
    | none => rfl
    | some b => simp [hashProgram, absorbBytes_append]

/-- Settles O49: a list of ABSORBs is cut where the message is cut, for the commands and for the assembler. -/
theorem absorbIsChunkInvariant : Obligations.AbsorbIsChunkInvariant := by
  refine ⟨fun a b s t ha => ?commands, assemble_absorbBytes_twice⟩
  case commands => rw [absorbBytes_append, execAll_append_of_next ha]

end Sys2Proof.Proofs.Absorption
end

section
/-! Rule R148: how the SQUEEZEs after a FINALIZE go. -/

namespace Sys2Proof.Proofs.Squeezing

open Sys2Proof Sys2Proof.Machine
open Sys2Proof.Proofs.CommandRules (toNat_cursor_succ_of_lt_output)

/-- `t` is `s`, a state at the start of its digest, after `n` successful SQUEEZEs. -/
structure Squeezed (s : State) (n : Nat) (t : State) : Prop where
  noFault : t.fault = false
  cause : t.cause = s.cause
  phase : t.phase = .squeeze
  variant : t.variant = s.variant
  cursor : t.cursor.toNat = n
  lanes : t.lanes = s.lanes
  inputs : t.inputs = s.inputs
  received : t.received = s.received ++ firstBytes s.lanes n

section commands
variable {s t : State} {n : Nat}

theorem squeezed_zero (hf : s.fault = false) (hp : s.phase = .squeeze) (hc : s.cursor = 0) : Squeezed s 0 s :=
  ⟨hf, rfl, hp, rfl, by rw [hc]; rfl, rfl, rfl, (List.append_nil _).symm⟩

/-- Below `outlen` the next SQUEEZE delivers the next byte of the digest (rule R145). -/
theorem Squeezed.squeeze (h : Squeezed s n t) (hn : n < (lut s.variant).outputBytes) :
    ∃ u, exec .squeeze t = .next u ∧ Squeezed s (n + 1) u := by
  have hbound := lut_bounds s.variant
  have hlt : t.cursor.toNat < (lut t.variant).outputBytes := by rw [h.cursor, h.variant]; exact hn
  have hk : cursorAddr t (lut t.variant).outputBytes = some (Fin.ofNat 200 n) :=
    cursorAddr_eq_some.2 ⟨by rw [h.cursor]; exact Nat.mod_eq_of_lt (by omega), hlt⟩
  refine ⟨_, execSqueeze_eq h.noFault h.phase hk,
    ⟨h.noFault, h.cause, h.phase, h.variant, ?cursor, h.lanes, h.inputs, ?received⟩⟩
  case cursor => exact (toNat_cursor_succ_of_lt_output hlt).trans (by rw [h.cursor])
  case received => simp [h.received, h.lanes, firstBytes_succ]

/-- At `outlen` the next SQUEEZE faults (rules R145, R184). -/
theorem Squeezed.overrun (h : Squeezed s (lut s.variant).outputBytes t) :
    exec .squeeze t = .next (enterFault .squeezeOverrun t) :=
  execSqueeze_overrun h.noFault h.phase (by rw [h.cursor, h.variant])

/-- By induction on the number of SQUEEZEs, the last of them taken off. -/
theorem squeezed_of_replicate (hf : s.fault = false) (hp : s.phase = .squeeze) (hc : s.cursor = 0)
    (hn : n ≤ (lut s.variant).outputBytes) :
    ∃ t, execAll (List.replicate n .squeeze) s = .next t ∧ Squeezed s n t := by
  induction n with
  | zero => exact ⟨s, rfl, squeezed_zero hf hp hc⟩
  | succ n ih =>
    obtain ⟨t, hrun, ht⟩ := ih (by omega)
    obtain ⟨u, hlast, hu⟩ := ht.squeeze hn
    refine ⟨u, ?_, hu⟩
    rw [List.replicate_succ', execAll_append_of_next hrun, execAll_cons_of_next hlast, execAll_nil]

end commands

/-- Settles O47: after `outlen` successes the cursor stands at `outlen`. -/
theorem exactlyOutlenSqueezesSucceed : Obligations.ExactlyOutlenSqueezesSucceed := by
  refine fun s hf hp hc => ⟨fun n hn => ?succeed, ?overrun⟩
  case succeed =>
    obtain ⟨t, hrun, ht⟩ := squeezed_of_replicate hf hp hc hn
    exact ⟨t, hrun, ht.noFault, ht.cursor, ht.received, ht.lanes⟩
  case overrun =>
    obtain ⟨t, hrun, ht⟩ := squeezed_of_replicate hf hp hc le_rfl
    refine ⟨enterFault .squeezeOverrun t, ?_, rfl, rfl, ht.received⟩
    rw [List.replicate_succ', execAll_append_of_next hrun, execAll_cons_of_next ht.overrun, execAll_nil]

end Sys2Proof.Proofs.Squeezing
end

section
/-! Rules R144 and R153: the engine after an INIT and the ABSORBs of a message is the buffered machine with its buffer
XORed in, and FINALIZE does to it what the padded block does to the buffered machine. -/

namespace Sys2Proof.Proofs.BufferedMachine

open Sys2Proof Sys2Proof.Machine
open Sys2Proof.Proofs.Absorption (Absorbing)
open Sys2Proof.Proofs.CommandRules (readByte_padState)

/-- The engine that corresponds to the buffered machine `m`, in a computation of variant `v` begun at `s`. -/
def buffering (v : Variant) (m : Buffered) (s : State) : State :=
  putBlock (xorBytes m.lanes 0 m.buffer) (BitVec.ofNat 8 m.buffer.length) (construct v (quiet s))

section engine
variable {v : Variant} {m : Buffered} {s : State}

/-- INIT leaves the engine of the fresh buffered machine (rule R141). -/
theorem exec_init_eq_buffering (hf : s.fault = false) (v : Variant) :
    exec (.init v) s = .next (buffering v Buffered.fresh s) := execInit_eq hf v

theorem toNat_cursor_buffering (hm : m.buffer.length < (lut v).rateBytes) :
    (buffering v m s).cursor.toNat = m.buffer.length := by
  have hrate := lut_bounds v
  exact Nat.mod_eq_of_lt (by omega)

theorem absorbing_buffering (hf : s.fault = false) (hm : m.buffer.length < (lut v).rateBytes) :
    Absorbing (buffering v m s) :=
  ⟨hf, rfl, (toNat_cursor_buffering hm).trans_lt hm⟩

theorem xorBytes_concat (a : Lanes) (bs : List Byte) (b : Byte) :
    xorBytes a 0 (bs ++ [b]) = xorByte (xorBytes a 0 bs) (Fin.ofNat 200 bs.length) b := by
  rw [xorBytes_append, Nat.zero_add, xorBytes, xorBytes]

/-- A buffer that was not full has room again after one more byte, being emptied when that fills it. -/
theorem bufferedAbsorb_room (hm : m.buffer.length < (lut v).rateBytes) (b : Byte) :
    (bufferedAbsorb v m b).buffer.length < (lut v).rateBytes := by
  rw [bufferedAbsorb]
  split
  · exact Nat.zero_lt_of_lt hm
  · rw [List.length_append, List.length_singleton]
    omega

/-- A byte more in the buffer is one XORed in behind it, with the cursor one further. -/
theorem buffering_concat (b : Byte) : buffering v ⟨m.lanes, m.buffer ++ [b]⟩ s =
    putBlock (xorByte (buffering v m s).lanes (Fin.ofNat 200 m.buffer.length) b) ((buffering v m s).cursor + 1)
      (quiet (buffering v m s)) := by
  rw [buffering, xorBytes_concat, List.length_append, BitVec.ofNat_add]
  rfl

/-- One ABSORB keeps the correspondence (rules R142, R153). -/
theorem absorb_buffering (hf : s.fault = false) (hm : m.buffer.length < (lut v).rateBytes) (b : Byte) :
    exec (.absorb b) (buffering v m s) = .next (buffering v (bufferedAbsorb v m b) s) := by
  have habsorbing : Absorbing (buffering v m s) := absorbing_buffering hf hm
  have hcursor : (buffering v m s).cursor.toNat = m.buffer.length := toNat_cursor_buffering hm
  have hk := habsorbing.cursorAddr_eq
  rw [hcursor] at hk
  by_cases hfull : m.buffer.length + 1 = (lut v).rateBytes
  · rw [bufferedAbsorb, if_pos hfull, xorBytes_concat]
    exact execAbsorb_full habsorbing.noFault habsorbing.phase hk (by rw [hcursor]; exact hfull) b
  · rw [bufferedAbsorb, if_neg hfull, buffering_concat]
    exact execAbsorb_partial habsorbing.noFault habsorbing.phase hk (by rw [hcursor]; exact hfull) b

/-- The ABSORBs of a message keep the correspondence, by induction on the message. -/
theorem absorbBytes_buffering (hf : s.fault = false) (hm : m.buffer.length < (lut v).rateBytes) (msg : List Byte) :
    execAll (absorbBytes msg) (buffering v m s) = .next (buffering v (msg.foldl (bufferedAbsorb v) m) s) := by
  induction msg generalizing m with
  | nil => rfl
  | cons b msg ih =>
    exact (execAll_cons_of_next (absorb_buffering hf hm b) _).trans (ih (bufferedAbsorb_room hm b))

theorem foldl_bufferedAbsorb_room (hm : m.buffer.length < (lut v).rateBytes) (msg : List Byte) :
    (msg.foldl (bufferedAbsorb v) m).buffer.length < (lut v).rateBytes := by
  induction msg generalizing m with
  | nil => exact hm
  | cons b msg ih => exact ih (bufferedAbsorb_room hm b)

theorem fresh_room (v : Variant) : Buffered.fresh.buffer.length < (lut v).rateBytes := by
  have hrate := lut_bounds v
  exact (by omega : 0 < (lut v).rateBytes)

/-- INIT and the ABSORBs of a message, from any state with no fault. -/
theorem init_absorbBytes (hf : s.fault = false) (v : Variant) (msg : List Byte) :
    execAll (.init v :: absorbBytes msg) s =
      .next (buffering v (msg.foldl (bufferedAbsorb v) Buffered.fresh) s) :=
  (execAll_cons_of_next (exec_init_eq_buffering hf v) _).trans (absorbBytes_buffering hf (fresh_room v) msg)

end engine

section padding
variable {v : Variant} {tail : List Byte}

theorem getD_paddedBlock {k : Nat} (hk : k < (lut v).rateBytes) : (paddedBlock v tail).getD k 0 =
    tail.getD k 0 ^^^ (if k = tail.length then 0x06 else 0) ^^^ (if k = (lut v).rateBytes - 1 then 0x80 else 0) := by
  simp [paddedBlock, hk]

/-- The padded block is the tail with the two bytes of the padding XORed in after it (rule R144). -/
theorem xorBytes_paddedBlock (a : Lanes) (ht : tail.length < (lut v).rateBytes) :
    xorBytes a 0 (paddedBlock v tail) = padState v (Fin.ofNat 200 tail.length) (xorBytes a 0 tail) := by
  have hrate := lut_bounds v
  have hlength : (paddedBlock v tail).length = (lut v).rateBytes := by simp [paddedBlock]
  refine lanes_ext_bytes fun j => ?_
  have hsep : j = Fin.ofNat 200 tail.length ↔ j.val = tail.length := by
    rw [Fin.ext_iff, Fin.val_ofNat, Nat.mod_eq_of_lt (by omega)]
  have htail : (if j.val < tail.length then tail.getD j.val 0 else 0) = tail.getD j.val 0 := by
    split
    · rfl
    · exact (List.getD_eq_default _ _ (by omega)).symm
  rw [readByte_padState, readByte_xorBytes _ _ _ (by omega), readByte_xorBytes _ _ _ (by omega)]
  simp only [hsep, hlength, Nat.zero_le, Nat.zero_add, Nat.sub_zero, true_and, htail]
  by_cases hj : j.val < (lut v).rateBytes
  · rw [if_pos hj, getD_paddedBlock hj]
    simp only [BitVec.xor_assoc]
  · have hbeyond : tail.getD j.val 0 = 0 := List.getD_eq_default _ _ (by omega)
    have hne : j.val ≠ tail.length := by omega
    have hlast : j.val ≠ (lut v).rateBytes - 1 := by omega
    rw [if_neg hj, if_neg hne, if_neg hlast, hbeyond]
    simp

end padding

/-- FINALIZE gives the engine the lanes of the buffered machine's padded block (rule R153). -/
theorem finalize_buffering {v : Variant} {m : Buffered} {s : State} (hf : s.fault = false)
    (hm : m.buffer.length < (lut v).rateBytes) :
    exec .finalize (buffering v m s) =
      .next (setPhase .squeeze (putBlock (bufferedFinalize v m) 0 (construct v (quiet s)))) := by
  rw [(absorbing_buffering hf hm).finalize, toNat_cursor_buffering hm, bufferedFinalize, xorBytes_paddedBlock _ hm]
  rfl

/-- Settles O51: the engine stays the buffered machine's through INIT and every ABSORB. -/
theorem bufferedMachineIsEquivalent : Obligations.BufferedMachineIsEquivalent := by
  rintro v msg s m hf rfl
  have hm := foldl_bufferedAbsorb_room (fresh_room v) msg
  exact ⟨_, _, init_absorbBytes hf v msg, rfl, toNat_cursor_buffering hm, finalize_buffering hf hm, rfl⟩

/-! ### The buffered machine and the blocks of rule R152 -/

section blocks
variable {v : Variant}

/-- Bytes that leave room in the block are only buffered. -/
theorem foldl_bufferedAbsorb_of_lt {buffer msg : List Byte} (a : Lanes)
    (h : buffer.length + msg.length < (lut v).rateBytes) :
    msg.foldl (bufferedAbsorb v) ⟨a, buffer⟩ = ⟨a, buffer ++ msg⟩ := by
  induction msg generalizing buffer with
  | nil => rw [List.append_nil]; rfl
  | cons b msg ih =>
    rw [List.length_cons] at h
    have hroom : buffer.length + 1 ≠ (lut v).rateBytes := by omega
    have hrest : (buffer ++ [b]).length + msg.length < (lut v).rateBytes := by
      rw [List.length_append, List.length_singleton]
      omega
    rw [List.foldl_cons, bufferedAbsorb, if_neg hroom, ih hrest, List.append_assoc, List.singleton_append]

/-- A whole block is XORed in and permuted, when its last byte comes. -/
theorem foldl_bufferedAbsorb_block {block : List Byte} (a : Lanes) (h : block.length = (lut v).rateBytes) :
    block.foldl (bufferedAbsorb v) ⟨a, []⟩ = ⟨permute (xorBytes a 0 block), []⟩ := by
  have hrate := lut_bounds v
  obtain rfl | ⟨init, last, rfl⟩ := List.eq_nil_or_concat' block
  · exact absurd h (by rw [List.length_nil]; omega)
  · rw [List.length_append, List.length_singleton] at h
    have hinit : ([] : List Byte).length + init.length < (lut v).rateBytes := by rw [List.length_nil]; omega
    rw [List.foldl_append, foldl_bufferedAbsorb_of_lt a hinit, List.nil_append, List.foldl_cons, List.foldl_nil,
      bufferedAbsorb, if_pos h]

/-- After a message of `q` full blocks and a tail, the lanes have taken the blocks and the buffer holds the tail. -/
theorem foldl_bufferedAbsorb_blocks (q : Nat) (a : Lanes) (msg : List Byte)
    (hlo : q * (lut v).rateBytes ≤ msg.length) (hhi : msg.length < (q + 1) * (lut v).rateBytes) :
    msg.foldl (bufferedAbsorb v) ⟨a, []⟩ =
      ⟨absorbBlocks (lut v).rateBytes q a msg, msg.drop (q * (lut v).rateBytes)⟩ := by
  induction q generalizing a msg with
  | zero =>
    rw [foldl_bufferedAbsorb_of_lt a (by simpa using hhi), Nat.zero_mul]
    rfl
  | succ q ih =>
    rw [Nat.succ_mul] at hlo
    rw [Nat.succ_mul (q + 1)] at hhi
    have hblock : (msg.take (lut v).rateBytes).length = (lut v).rateBytes := by rw [List.length_take]; omega
    have hrest : (msg.drop (lut v).rateBytes).length = msg.length - (lut v).rateBytes := List.length_drop
    calc msg.foldl (bufferedAbsorb v) ⟨a, []⟩
      _ = (msg.take (lut v).rateBytes ++ msg.drop (lut v).rateBytes).foldl (bufferedAbsorb v) ⟨a, []⟩ := by
        rw [List.take_append_drop]
      _ = (msg.drop (lut v).rateBytes).foldl (bufferedAbsorb v)
            ⟨permute (xorBytes a 0 (msg.take (lut v).rateBytes)), []⟩ := by
        rw [List.foldl_append, foldl_bufferedAbsorb_block a hblock]
      _ = ⟨absorbBlocks (lut v).rateBytes (q + 1) a msg, msg.drop ((q + 1) * (lut v).rateBytes)⟩ := by
        rw [ih _ _ (by omega) (by omega), List.drop_drop, Nat.succ_mul, Nat.add_comm (lut v).rateBytes]
        rfl

/-- The buffered machine's lanes and buffer make the lanes of the sponge function before padding (rule R152). -/
theorem foldl_bufferedAbsorb_fresh (msg : List Byte) :
    msg.foldl (bufferedAbsorb v) Buffered.fresh =
      ⟨absorbBlocks (lut v).rateBytes (msg.length / (lut v).rateBytes) Lanes.zero msg,
        msg.drop (msg.length / (lut v).rateBytes * (lut v).rateBytes)⟩ := by
  have hrate : 0 < (lut v).rateBytes := by have := lut_bounds v; omega
  refine foldl_bufferedAbsorb_blocks _ _ _ (Nat.div_mul_le_self _ _) ?_
  rw [Nat.mul_comm]
  exact Nat.lt_mul_div_succ _ hrate

/-- The buffered machine ends in the final lanes of the sponge function (rules R152, R153). -/
theorem bufferedFinalize_foldl (msg : List Byte) :
    bufferedFinalize v (msg.foldl (bufferedAbsorb v) Buffered.fresh) = finalLanes v msg := by
  have hroom := foldl_bufferedAbsorb_room (fresh_room v) msg
  rw [foldl_bufferedAbsorb_fresh] at hroom ⊢
  rw [bufferedFinalize, xorBytes_paddedBlock _ hroom, finalLanes, absorbedLanes, List.length_drop,
    Nat.mod_eq_sub_div_mul]

end blocks

end Sys2Proof.Proofs.BufferedMachine
end

section
/-! Rules R149, R152 and R223: whole computations, their independence of the past, and the digest they return. -/

namespace Sys2Proof.Proofs.Computation

open Sys2Proof Sys2Proof.Machine
open Sys2Proof.Proofs.BufferedMachine
open Sys2Proof.Proofs.Channel (step_of_issue)
open Sys2Proof.Proofs.Encoding (decode_encode)
open Sys2Proof.Proofs.Registers (execCase_inputs)
open Sys2Proof.Proofs.Squeezing (Squeezed squeezed_of_replicate)

/-! ### The host's lists -/

/-- The state with other lists of the host. -/
def withHost (inputs : List HostEvent) (received : List Byte) (s : State) : State :=
  { s with inputs := inputs, received := received }

/-- `run` takes `s` to `t` and delivers the bytes `r`, and does so whatever the host's lists are (rule R213). -/
def Delivers (run : State → Result) (s t : State) (r : List Byte) : Prop :=
  t.received = s.received ++ r ∧
    ∀ inputs received, run (withHost inputs received s) = .next (withHost inputs (received ++ r) t)

section host
variable {s t u : State} {r r' : List Byte}

theorem delivers_nil {run : State → Result} (hr : t.received = s.received)
    (h : ∀ inputs received, run (withHost inputs received s) = .next (withHost inputs received t)) :
    Delivers run s t [] :=
  ⟨by rw [hr, List.append_nil], fun inputs received => by rw [List.append_nil]; exact h inputs received⟩

theorem Delivers.cons {i : Instr} {p : List Instr} (hi : Delivers (exec i) s t r) (hp : Delivers (execAll p) t u r') :
    Delivers (execAll (i :: p)) s u (r ++ r') := by
  obtain ⟨hr, hi⟩ := hi
  obtain ⟨hr', hp⟩ := hp
  refine ⟨by rw [hr', hr, List.append_assoc], fun inputs received => ?_⟩
  rw [execAll_cons_of_next (hi _ _), hp, List.append_assoc]

/-- No case of a command reads the host's lists, and only a SQUEEZE adds to them. -/
theorem exec_delivers {i : Instr} (h : exec i s = .next t) : ∃ r, Delivers (exec i) s t r := by
  cases exec_cases h with
  | discarded hf =>
    exact ⟨[], delivers_nil rfl fun inputs received => exec_of_fault (s := withHost inputs received s) hf i⟩
  | @constructed v hf =>
    exact ⟨[], delivers_nil rfl fun inputs received => execInit_eq (s := withHost inputs received s) hf v⟩
  | violated hf hi =>
    refine ⟨[], delivers_nil rfl fun inputs received => ?_⟩
    obtain ⟨hp, ⟨b, rfl⟩ | rfl⟩ | ⟨hp, rfl⟩ := hi
    · exact execAbsorb_wrong_phase (s := withHost inputs received s) hf hp b
    · exact execFinalize_wrong_phase hf hp
    · exact execSqueeze_wrong_phase hf hp
  | @filled b _ hf hp hk hc =>
    exact ⟨[], delivers_nil rfl fun inputs received => execAbsorb_full (s := withHost inputs received s) hf hp hk hc b⟩
  | @absorbed b _ hf hp hk hc =>
    refine ⟨[], delivers_nil rfl fun inputs received => ?_⟩
    exact execAbsorb_partial (s := withHost inputs received s) hf hp hk hc b
  | finalized hf hp hk => exact ⟨[], delivers_nil rfl fun _ _ => execFinalize_eq hf hp hk⟩
  | overrun hf hp hc => exact ⟨[], delivers_nil rfl fun _ _ => execSqueeze_overrun hf hp hc⟩
  | squeezed hf hp hk => exact ⟨_, rfl, fun _ _ => execSqueeze_eq hf hp hk⟩

/-- A run that answers a next state has run its first command to one. -/
theorem execAll_cons_eq_next {i : Instr} {p : List Instr} (h : execAll (i :: p) s = .next u) :
    ∃ t, exec i s = .next t ∧ execAll p t = .next u := by
  cases hi : exec i s with
  | next t => exact ⟨t, rfl, execAll_cons_of_next hi p ▸ h⟩
  | fault r => simp [execAll, hi] at h
  | refused r => simp [execAll, hi] at h

/-- The same of a sequence of commands, by induction on it. -/
theorem execAll_delivers {p : List Instr} (h : execAll p s = .next u) : ∃ r, Delivers (execAll p) s u r := by
  induction p generalizing s with
  | nil =>
    cases h
    exact ⟨[], delivers_nil rfl fun _ _ => rfl⟩
  | cons i p ih =>
    obtain ⟨t, hi, hp⟩ := execAll_cons_eq_next h
    obtain ⟨r, hr⟩ := exec_delivers hi
    obtain ⟨r', hr'⟩ := ih hp
    exact ⟨r ++ r', hr.cons hr'⟩

end host

/-! ### Independence of the past -/

/-- INIT, and then the other commands from the context it constructs. -/
theorem execAll_init_cons {s : State} (hf : s.fault = false) (v : Variant) (p : List Instr) :
    execAll (.init v :: p) s = execAll p (construct v (quiet s)) :=
  execAll_cons_of_next ((exec_init v s).trans (execInit_eq hf v)) p

/-- After an INIT two engines with the same fault registers differ only in their hosts' lists (rule R149). -/
theorem construct_eq_withHost {s s' : State} (hf : s.fault = s'.fault) (hc : s.cause = s'.cause) (v : Variant) :
    construct v (quiet s') = withHost s'.inputs s'.received (construct v (quiet s)) := by
  simp [construct, quiet, withHost, hf, hc]

/-- Settles O50: after the INIT, the second run is the first with another host. -/
theorem initForgetsThePast : Obligations.InitForgetsThePast := by
  rintro v p s s' t ⟨-, -, -, hcause⟩ ⟨-, -, -, hcause'⟩ hf hf' hrun
  rw [execAll_init_cons hf] at hrun
  obtain ⟨r, hr, hhost⟩ := execAll_delivers hrun
  have hsame := construct_eq_withHost (hf.trans hf'.symm) ((hcause.1 hf).trans (hcause'.1 hf').symm) v
  refine ⟨withHost s'.inputs (s'.received ++ r) t, r, ?_, ⟨rfl, rfl, rfl, rfl, rfl, rfl⟩, rfl, hr, rfl⟩
  rw [execAll_init_cons hf', hsame]
  exact hhost _ _

/-! ### Issued programs -/

/-- A command does the same whatever events stand behind its word. -/
theorem exec_takeInput {i : Instr} {s t : State} (h : exec i s = .next t) (events : List HostEvent) :
    exec i (takeInput events s) = .next (takeInput events t) := by
  obtain ⟨r, hr, hhost⟩ := exec_delivers h
  have hevents : withHost events (s.received ++ r) t = takeInput events t := by rw [← hr]; rfl
  exact (hhost events s.received).trans (by rw [hevents])

theorem takeInput_inputs_eq {s : State} {rest : List HostEvent} (h : s.inputs = rest) : takeInput rest s = s := by
  rw [← h]
  rfl

theorem run_succ_of_step {s t : State} (h : step s = .next t) (n : Nat) :
    Host.Core.run Sys2Proof.core (n + 1) s = Host.Core.run Sys2Proof.core n t := by
  have hcore : Sys2Proof.core.step s = .next t := h
  simp only [Host.Core.run, hcore]

/-- The words of a program, issued one a step, run its commands one after the other (rules R92, R218). -/
theorem run_issueAll {p : List Instr} {s t : State} {rest : List HostEvent} (hin : s.inputs = issueAll p ++ rest)
    (h : execAll p (takeInput rest s) = .next t) : Host.Core.run Sys2Proof.core p.length s = .next t := by
  induction p generalizing s with
  | nil =>
    have hsame : takeInput rest s = s := takeInput_inputs_eq hin
    rw [hsame] at h
    exact h
  | cons i p ih =>
    obtain ⟨u, hi, hp⟩ := execAll_cons_eq_next h
    have hrest : takeInput rest u = u := takeInput_inputs_eq (execCase_inputs (exec_cases hi))
    have hstep : step s = .next (takeInput (issueAll p ++ rest) u) := by
      rw [step_of_issue hin, issueWord_of_legal (decode_encode i)]
      exact exec_takeInput hi (issueAll p ++ rest)
    rw [List.length_cons, run_succ_of_step hstep]
    refine ih rfl ?_
    rw [← hp, ← hrest]
    rfl

/-! ### The digest -/

/-- In the fault state the commands of a program are discarded (rule R187). -/
theorem execAll_of_fault {s : State} (hf : s.fault = true) (i : Instr) (p : List Instr) :
    execAll (i :: p) s = .next (quiet s) := by
  induction p generalizing i s with
  | nil => rw [execAll_cons_of_next (exec_of_fault hf i), execAll_nil]
  | cons j p ih =>
    rw [execAll_cons_of_next (exec_of_fault hf i), ih (by exact hf)]
    rfl

/-- The state that INIT, the ABSORBs of `m` and FINALIZE leave: the digest stands in the lanes, none of it read. -/
def digestOpened (v : Variant) (m : List Byte) (s : State) : State :=
  setPhase .squeeze (putBlock (finalLanes v m) 0 (construct v (quiet s)))

/-- INIT and the ABSORBs go by the buffered machine, and FINALIZE ends in the lanes of rule R152. -/
theorem execAll_hashProgram_eq {s : State} (hf : s.fault = false) (v : Variant) (m : List Byte) :
    execAll (hashProgram v m) s =
      execAll (List.replicate (lut v).outputBytes .squeeze) (digestOpened v m s) := by
  have hfinalize := finalize_buffering (s := s) hf (foldl_bufferedAbsorb_room (fresh_room v) m)
  rw [bufferedFinalize_foldl] at hfinalize
  rw [hashProgram, finalizeAndSqueeze, ← List.cons_append, execAll_append_of_next (init_absorbBytes hf v m),
    execAll_cons_of_next hfinalize, digestOpened]

/-- A whole computation squeezes the digest out of the lanes it ends in. -/
theorem execAll_hashProgram {s : State} (hf : s.fault = false) (v : Variant) (m : List Byte) :
    ∃ t, execAll (hashProgram v m) s = .next t ∧ Squeezed (digestOpened v m s) (lut v).outputBytes t := by
  rw [execAll_hashProgram_eq hf]
  exact squeezed_of_replicate hf rfl rfl le_rfl

/-- Settles O46: the words run as the commands of the program, which squeeze the digest, or are all discarded. -/
theorem computationReturnsTheDigest : Obligations.ComputationReturnsTheDigest := by
  intro v m s rest hin
  by_cases hf : s.fault = true
  · have hrun : execAll (hashProgram v m) (takeInput rest s) = .next (quiet (takeInput rest s)) :=
      execAll_of_fault (s := takeInput rest s) hf _ _
    exact ⟨_, run_issueAll hin hrun, rfl, rfl, fun h => absurd hf (by simp [h]), fun _ => rfl⟩
  · have hf : s.fault = false := by simpa using hf
    obtain ⟨t, hrun, ht⟩ := execAll_hashProgram (s := takeInput rest s) hf v m
    have hcursor : t.cursor.toNat = (lut t.variant).outputBytes := by rw [ht.cursor, ht.variant]; rfl
    exact ⟨t, run_issueAll hin hrun, ht.inputs, ht.cause,
      fun _ => ⟨⟨ht.phase, hcursor, ht.noFault⟩, ht.variant, ht.received, ht.lanes⟩, fun h => by simp [hf] at h⟩

end Sys2Proof.Proofs.Computation
end

section
/-! Rules R170, R172 and R173: the rows of the variant LUT, the derived capacity, and what other rules rely on. -/

namespace Sys2Proof.Proofs.VariantLut

open Sys2Proof Sys2Proof.Machine

/-- The rate leaves room in the 1600 bits, so the subtraction that derives the capacity is exact (rule R172). -/
theorem rateBits_add_capacityBits (v : Variant) : 8 * (lut v).rateBytes + capacityBits v = 1600 := by
  obtain ⟨-, hrate, -⟩ := lut_bounds v
  rw [capacityBits]
  omega

/-- Settles O33: the rows are read at their codes, which are distinct since each is the code of its variant. -/
theorem variantLutRows : Obligations.VariantLutRows :=
  ⟨rfl, rfl, rfl, rfl, variantCode_variantOfCode, rateBits_add_capacityBits, rfl⟩

/-- The rate region is a whole number of lanes (rule R173 (b)). -/
theorem rateBytes_mod_eight (v : Variant) : (lut v).rateBytes % 8 = 0 := by cases v <;> rfl

/-- The row check is the properties (a) to (d) of rule R173. -/
theorem lutRow_wf_iff (r : LutRow) : r.wf = true ↔
    r.outputBytes < r.rateBytes ∧ (r.rateBytes % 8 = 0 ∧ 72 ≤ r.rateBytes ∧ r.rateBytes ≤ 144) ∧
      r.domainSeparator &&& 0x80 = 0 := by
  simp [LutRow.wf, and_assoc]

/-- The separator of every row is 0x06, whose top bit is clear (rule R173 (c)). -/
theorem domainSeparator_and_topBit (v : Variant) : (lut v).domainSeparator &&& 0x80 = 0 := by
  rw [lut_sep]
  rfl

/-- Settles O34: the bounds of the rows, and the check that consists of them. -/
theorem variantLutProperties : Obligations.VariantLutProperties := by
  intro v
  obtain ⟨hlo, hhi, hout⟩ := lut_bounds v
  have hlanes := rateBytes_mod_eight v
  have hsep := domainSeparator_and_topBit v
  have hstate : (lut v).rateBytes < 200 := by omega
  exact ⟨hout.le, ⟨hlanes, hlo, hhi, hstate⟩, hsep, hout, (lutRow_wf_iff _).2 ⟨hout, ⟨hlanes, hlo, hhi⟩, hsep⟩⟩

end Sys2Proof.Proofs.VariantLut
end

section
/-! Rules R181 to R187 and R197: which command faults in which phase and with which cause, that a fault enters
precisely and is absorbing, and what a SQUEEZE shows of the lanes. -/

namespace Sys2Proof.Proofs.Exceptions

open Sys2Proof Sys2Proof.Machine
open Sys2Proof.Proofs.Absorption (Absorbing)
open Sys2Proof.Proofs.CommandRules (issueWord_of_fault issueWord_of_illegal_no_fault)
open Sys2Proof.Proofs.Registers (execCase_fault)

/-! ### The cells of the phase table -/

/-- The command is executed at `s`: it answers a state with no fault, in phase `p`. -/
def Executes (i : Instr) (s : State) (p : Phase) : Prop :=
  ∃ t, exec i s = .next t ∧ t.fault = false ∧ t.phase = p

section commands
variable {s : State}

theorem Executes.no_fault {i : Instr} {p : Phase} (h : Executes i s p) : ∃ t, exec i s = .next t ∧ t.fault = false := by
  obtain ⟨t, hx, hf, -⟩ := h
  exact ⟨t, hx, hf⟩

/-- A legal command in a phase that does not execute it enters the fault of cause 2 (rule R183). -/
theorem exec_of_wrong_phase {i : Instr} (hf : s.fault = false)
    (hi : (((∃ b, i = .absorb b) ∨ i = .finalize) ∧ s.phase ≠ .absorb) ∨ (i = .squeeze ∧ s.phase ≠ .squeeze)) :
    exec i s = .next (enterFault .phaseViolation s) := by
  obtain ⟨⟨b, rfl⟩ | rfl, hp⟩ | ⟨rfl, hp⟩ := hi
  · exact execAbsorb_wrong_phase hf hp b
  · exact execFinalize_wrong_phase hf hp
  · exact execSqueeze_wrong_phase hf hp

theorem executes_init (hf : s.fault = false) (v : Variant) : Executes (.init v) s .absorb :=
  ⟨_, execInit_eq hf v, hf, rfl⟩

/-- Invariant I3 is the bound that ABSORB and FINALIZE need. -/
theorem absorbing_of_inv (hs : Inv s) (hf : s.fault = false) (hp : s.phase = .absorb) : Absorbing s := by
  obtain ⟨-, hcursor, -, -⟩ := hs
  exact ⟨hf, hp, hcursor hp⟩

theorem executes_absorb (h : Absorbing s) (b : Byte) : Executes (.absorb b) s .absorb := by
  obtain ⟨t, hx, ht, -, -⟩ := h.absorb b
  exact ⟨t, hx, ht.noFault, ht.phase⟩

theorem executes_finalize (h : Absorbing s) : Executes .finalize s .squeeze :=
  ⟨_, h.finalize, h.noFault, rfl⟩

/-- By invariant I4 a cursor that is not at `outlen` is below it, where there is a byte to return. -/
theorem executes_squeeze (hs : Inv s) (hf : s.fault = false) (hp : s.phase = .squeeze)
    (hc : s.cursor.toNat ≠ (lut s.variant).outputBytes) : Executes .squeeze s .squeeze := by
  obtain ⟨-, -, hcursor, -⟩ := hs
  have hlt : s.cursor.toNat < (lut s.variant).outputBytes := lt_of_le_of_ne (hcursor hp) hc
  have hbound := lut_bounds s.variant
  exact ⟨_, execSqueeze_eq hf hp (cursorAddr_of_lt hlt (by omega)), hf, hp⟩

end commands

/-! ### The phase table and the order of the checks -/

/-- Settles O18: each cell of the table is a fault entry or an executed command. -/
theorem phaseTable : Obligations.PhaseTable := by
  refine fun s hs hf => ⟨executes_init hf, fun hp => ?notAbsorb, fun hp => ?absorb, fun hp => ?notSqueeze,
    fun hp hc => ?overrun, executes_squeeze hs hf⟩
  case notAbsorb =>
    have hne : s.phase ≠ .absorb := by obtain hp | hp := hp <;> simp [hp]
    exact ⟨fun b => ⟨_, exec_of_wrong_phase hf (.inl ⟨.inl ⟨b, rfl⟩, hne⟩), rfl, rfl⟩,
      ⟨_, exec_of_wrong_phase hf (.inl ⟨.inr rfl, hne⟩), rfl, rfl⟩⟩
  case absorb =>
    have hready : Absorbing s := absorbing_of_inv hs hf hp
    exact ⟨executes_absorb hready, executes_finalize hready⟩
  case notSqueeze =>
    have hne : s.phase ≠ .squeeze := by obtain hp | hp := hp <;> simp [hp]
    exact ⟨_, exec_of_wrong_phase hf (.inr ⟨rfl, hne⟩), rfl, rfl⟩
  case overrun => exact ⟨_, execSqueeze_overrun hf hp hc, rfl, rfl⟩

/-- Settles O7: the checks before the decoder's answer, then the cells of the phase table. -/
theorem checksComeInTheOrderOfTheRule : Obligations.ChecksComeInTheOrderOfTheRule := by
  refine fun s w hs => ⟨fun hf => issueWord_of_fault hf w,
    fun hf ⟨_, hd⟩ => issueWord_of_illegal_no_fault hd hf, fun hf i hd => ?legal⟩
  rw [issueWord_of_legal hd]
  refine ⟨exec_of_wrong_phase hf, ?overrun, ?executed⟩
  case overrun =>
    rintro ⟨rfl, hp, hc⟩
    exact execSqueeze_overrun hf hp hc
  case executed =>
    rintro (⟨v, rfl⟩ | ⟨⟨b, rfl⟩ | rfl, hp⟩ | ⟨rfl, hp, hc⟩)
    · exact (executes_init hf v).no_fault
    · exact (executes_absorb (absorbing_of_inv hs hf hp) b).no_fault
    · exact (executes_finalize (absorbing_of_inv hs hf hp)).no_fault
    · exact (executes_squeeze hs hf hp hc).no_fault

/-- Settles O21: of a command's cases only the phase violation and the overrun set `fault`. -/
theorem causesAreRaisedByTheirCommands : Obligations.CausesAreRaisedByTheirCommands := by
  intro i s t hf hx ht
  cases exec_cases hx with
  | violated _ hi => exact .inl ⟨rfl, hi.imp And.symm And.symm⟩
  | overrun _ hp hc => exact .inr ⟨rfl, rfl, hp, hc⟩
  | _ => exact absurd (hf.symm.trans ht) (by decide)

/-! ### Fault entry and the fault state -/

/-- A step that raises a fault is a fault entry at the state with the event taken off the host's list (rule R186):
only an illegal word and a command can raise one. -/
theorem stepCase_fault_entry {s t : State} (h : StepCase s t) (hf : s.fault = false) (ht : t.fault = true) :
    ∃ c, c ≠ .noFault ∧ t = enterFault c (takeInput s.inputs.tail s) := by
  cases h with
  | idle _ => simp [hf] at ht
  | waited _ => simp [hf] at ht
  | resetEvent _ _ => simp at ht
  | illegal hin _ =>
    refine ⟨.illegalEncoding, by decide, ?_⟩
    simp [hf, hin]
  | command hin _ hx =>
    rw [hin, List.tail_cons]
    obtain ⟨hkept, -⟩ | ⟨-, hentry⟩ := execCase_fault hx
    · simp [hkept, hf] at ht
    · exact hentry

/-- Settles O20: fault entry writes `fault`, `cause` and the response port alone. -/
theorem faultEntryIsPrecise : Obligations.FaultEntryIsPrecise := by
  intro s t hstep hf ht
  obtain ⟨c, hc, rfl⟩ := stepCase_fault_entry (step_cases hstep) hf ht
  exact ⟨rfl, hc⟩

/-- Settles O22: words and commands are discarded, and both definitions ask for `fault = 0`. -/
theorem faultStateIsAbsorbing : Obligations.FaultStateIsAbsorbing := by
  refine fun s hf => ⟨issueWord_of_fault hf, exec_of_fault hf, fun t hsuccess => ?step, fun hcomplete => ?complete⟩
  case step =>
    obtain ⟨-, hno, -, -⟩ := hsuccess
    simp [hf] at hno
  case complete =>
    obtain ⟨-, -, hno⟩ := hcomplete
    simp [hf] at hno

/-! ### What leaves the block -/

/-- Settles O28: a SQUEEZE reads no lane but for the byte it returns, whose address is below `outlen`. -/
theorem squeezeShowsOnlyDigestBytes : Obligations.SqueezeShowsOnlyDigestBytes := by
  rintro s _ t a rfl hbytes hx
  cases exec_cases hx with
  | discarded hf => exact exec_of_fault (s := { s with lanes := a }) hf _
  | violated hf hi =>
    have hp : s.phase ≠ .squeeze := by simpa using hi
    exact execSqueeze_wrong_phase hf hp
  | overrun hf hp hc => exact execSqueeze_overrun hf hp hc
  | @squeezed k hf hp hk =>
    obtain ⟨hval, hlt⟩ := cursorAddr_eq_some.1 hk
    have hread : readByte a k = readByte s.lanes k := hbytes k (hval ▸ hlt)
    rw [← hread]
    exact execSqueeze_eq (s := { s with lanes := a }) hf hp hk

end Sys2Proof.Proofs.Exceptions
end

section
/-! Rules R180, R210, R211 and R220: a reset event gives the reset state, and from a state of the invariants every
event completes. -/

namespace Sys2Proof.Proofs.ResetAndProgress

open Sys2Proof Sys2Proof.Machine
open Sys2Proof.Proofs.CommandRules (step_of_no_event)
open Sys2Proof.Proofs.Exceptions (absorbing_of_inv exec_of_wrong_phase executes_absorb executes_finalize executes_squeeze)
open Sys2Proof.Proofs.Invariant (inv_takeInput)

theorem step_of_event {s : State} {e : HostEvent} {rest : List HostEvent} (h : s.inputs = e :: rest) :
    step s = hostEvent e (takeInput rest s) := by
  rw [step, channelStep, h]

/-! ### Reset -/

/-- A reset event is handled alike between two commands and during one (rule R211). -/
theorem hostEvent_of_reset {e : HostEvent} (he : e = .reset ∨ ∃ w, e = .resetDuring w) (s : State) :
    hostEvent e s = .next (resetEngine s) := by
  obtain rfl | ⟨w, rfl⟩ := he <;> rfl

/-- Settles O8: both reset events reset the engine, after the event is taken off the host's list. -/
theorem resetEventGivesTheResetState : Obligations.ResetEventGivesTheResetState := by
  intro s e rest hin he
  rw [step_of_event hin, hostEvent_of_reset he]
  rfl

/-! ### Progress -/

section commands
variable {s : State}

/-- A command that asks for phase ABSORB is executed there or violates the phase. -/
theorem exec_completes_of_absorb_command {i : Instr} (hs : Inv s) (hf : s.fault = false)
    (hi : (∃ b, i = .absorb b) ∨ i = .finalize) : ∃ t, exec i s = .next t := by
  by_cases hp : s.phase = .absorb
  · have hready := absorbing_of_inv hs hf hp
    obtain ⟨b, rfl⟩ | rfl := hi
    · exact (executes_absorb hready b).imp fun _ => And.left
    · exact (executes_finalize hready).imp fun _ => And.left
  · exact ⟨_, exec_of_wrong_phase hf (.inl ⟨hi, hp⟩)⟩

/-- A SQUEEZE returns a byte, overruns the digest, or violates the phase. -/
theorem exec_completes_of_squeeze (hs : Inv s) (hf : s.fault = false) : ∃ t, exec .squeeze s = .next t := by
  by_cases hp : s.phase = .squeeze
  · by_cases hc : s.cursor.toNat = (lut s.variant).outputBytes
    · exact ⟨_, execSqueeze_overrun hf hp hc⟩
    · exact (executes_squeeze hs hf hp hc).imp fun _ => And.left
  · exact ⟨_, exec_of_wrong_phase hf (.inr ⟨rfl, hp⟩)⟩

/-- Under the invariants no command is refused: it is discarded, or it runs (rules R140, R150, R180). -/
theorem exec_completes (hs : Inv s) (i : Instr) : ∃ t, exec i s = .next t := by
  by_cases hf : s.fault = true
  · exact ⟨_, exec_of_fault hf i⟩
  have hf : s.fault = false := by simpa using hf
  cases i with
  | init v => exact ⟨_, execInit_eq hf v⟩
  | absorb b => exact exec_completes_of_absorb_command hs hf (.inl ⟨b, rfl⟩)
  | finalize => exact exec_completes_of_absorb_command hs hf (.inr rfl)
  | squeeze => exact exec_completes_of_squeeze hs hf

/-- Every word is handled, an illegal one in every state and a legal one as its command (rules R88, R140). -/
theorem issueWord_completes (hs : Inv s) (w : CmdWord) : ∃ t, issueWord w s = .next t := by
  cases hd : decode w with
  | ok i =>
    rw [issueWord_of_legal hd]
    exact exec_completes hs i
  | error e => exact ⟨_, issueWord_of_illegal hd s⟩

theorem hostEvent_completes (hs : Inv s) (e : HostEvent) : ∃ t, hostEvent e s = .next t := by
  cases e with
  | issue w => exact issueWord_completes hs w
  | reset => exact ⟨_, rfl⟩
  | resetDuring w => exact ⟨_, rfl⟩
  | wait => exact ⟨_, rfl⟩

end commands

/-- Settles O31: the host has no event left, or its next one completes, the invariant not reading the host's list. -/
theorem invariantStatesAlwaysStep : Obligations.InvariantStatesAlwaysStep := by
  intro s hs
  cases hin : s.inputs with
  | nil => exact ⟨_, step_of_no_event hin⟩
  | cons e rest =>
    rw [step_of_event hin]
    exact hostEvent_completes (inv_takeInput hs rest) e

end Sys2Proof.Proofs.ResetAndProgress
end
